-- ==== Sys2Proof/Word.lean ====
section
/-! DEFINITION. The word types of the block (00_scope.md R6, 10_state.md R20–R24, 30_encoding.md R81). -/

namespace Sys2Proof

/-- A byte: a general register, a timer or a memory cell. -/
abbrev Byte := BitVec 8

/-- A 16-bit word: an instruction word, I, PC, a stack slot, the keypad sample. -/
abbrev Word := BitVec 16

/-- The 12-bit address immediate NNN. -/
abbrev Addr := BitVec 12

/-- A 4-bit field of an instruction word. -/
abbrev Nibble := BitVec 4

/-- A general register number; a 4-bit field can name no other (R20). -/
abbrev Reg := Fin 16

end Sys2Proof
end

