-- ==== Sys2Proof/Syntax.lean ====
section
/-! DEFINITION. The 34 instructions of 30_encoding.md R86, one constructor per row of spec/opcode_table.json. -/

namespace Sys2Proof

/-- An instruction with its decoded fields (R83): registers X and Y, the byte NN, the address NNN, the nibble N. -/
inductive Instr where
  /-- `00E0` CLS -/
  | cls
  /-- `00EE` RET -/
  | ret
  /-- `1NNN` JP addr -/
  | jpAddr (nnn : Addr)
  /-- `2NNN` CALL addr -/
  | callAddr (nnn : Addr)
  /-- `3XNN` SE Vx, byte -/
  | seVxByte (x : Reg) (nn : Byte)
  /-- `4XNN` SNE Vx, byte -/
  | sneVxByte (x : Reg) (nn : Byte)
  /-- `5XY0` SE Vx, Vy -/
  | seVxVy (x y : Reg)
  /-- `6XNN` LD Vx, byte -/
  | ldVxByte (x : Reg) (nn : Byte)
  /-- `7XNN` ADD Vx, byte -/
  | addVxByte (x : Reg) (nn : Byte)
  /-- `8XY0` LD Vx, Vy -/
  | ldVxVy (x y : Reg)
  /-- `8XY1` OR Vx, Vy -/
  | orVxVy (x y : Reg)
  /-- `8XY2` AND Vx, Vy -/
  | andVxVy (x y : Reg)
  /-- `8XY3` XOR Vx, Vy -/
  | xorVxVy (x y : Reg)
  /-- `8XY4` ADD Vx, Vy -/
  | addVxVy (x y : Reg)
  /-- `8XY5` SUB Vx, Vy -/
  | subVxVy (x y : Reg)
  /-- `8XY6` SHR Vx, Vy -/
  | shrVxVy (x y : Reg)
  /-- `8XY7` SUBN Vx, Vy -/
  | subnVxVy (x y : Reg)
  /-- `8XYE` SHL Vx, Vy -/
  | shlVxVy (x y : Reg)
  /-- `9XY0` SNE Vx, Vy -/
  | sneVxVy (x y : Reg)
  /-- `ANNN` LD I, addr -/
  | ldIAddr (nnn : Addr)
  /-- `BNNN` JP V0, addr -/
  | jpV0Addr (nnn : Addr)
  /-- `CXNN` RND Vx, byte -/
  | rndVxByte (x : Reg) (nn : Byte)
  /-- `DXYN` DRW Vx, Vy, nibble -/
  | drwVxVyNibble (x y : Reg) (n : Nibble)
  /-- `EX9E` SKP Vx -/
  | skpVx (x : Reg)
  /-- `EXA1` SKNP Vx -/
  | sknpVx (x : Reg)
  /-- `FX07` LD Vx, DT -/
  | ldVxDT (x : Reg)
  /-- `FX0A` LD Vx, K -/
  | ldVxK (x : Reg)
  /-- `FX15` LD DT, Vx -/
  | ldDTVx (x : Reg)
  /-- `FX18` LD ST, Vx -/
  | ldSTVx (x : Reg)
  /-- `FX1E` ADD I, Vx -/
  | addIVx (x : Reg)
  /-- `FX29` LD F, Vx -/
  | ldFVx (x : Reg)
  /-- `FX33` LD B, Vx -/
  | ldBVx (x : Reg)
  /-- `FX55` LD [I], Vx -/
  | ldMemVx (x : Reg)
  /-- `FX65` LD Vx, [I] -/
  | ldVxMem (x : Reg)
  deriving DecidableEq, Repr

end Sys2Proof
end

