-- ==== Sys2Proof/Decode.lean ====
section
/-! DEFINITION. The instruction decoder (30_encoding.md R80–R89), the opcode map (R86–R88) and the encoder. -/

namespace Sys2Proof

/-! ## Words and bytes (20_memory.md R64) -/

/-- `hi ++ lo`: the byte at the lower address is bits 15:8. -/
def bigEndian (hi lo : Byte) : Word := hi ++ lo

/-- Bits 15:8 of a word, the byte stored at the lower address. -/
def highByte (w : Word) : Byte := w.extractLsb' 8 8

/-- Bits 7:0 of a word, the byte stored at the higher address. -/
def lowByte (w : Word) : Byte := w.extractLsb' 0 8

/-! ## Fields (R81) -/

/-- The six overlapping fields of an instruction word. -/
structure Fields where
  type : Nibble
  x : Nibble
  y : Nibble
  n : Nibble
  nn : Byte
  nnn : Addr
  deriving DecidableEq, Repr

/-- `Decode(word)` of R81: total, extracting all six fields from every word. -/
def fields (w : Word) : Fields where
  type := w.extractLsb' 12 4
  x := w.extractLsb' 8 4
  y := w.extractLsb' 4 4
  n := w.extractLsb' 0 4
  nn := w.extractLsb' 0 8
  nnn := w.extractLsb' 0 12

/-! ## The opcode map (R86–R88) -/

/-- Why a word is illegal, one name for each line of R88's list. -/
inductive Illegal where
  /-- `0NNN` other than `00E0` and `00EE` -/
  | type0
  /-- `5XYN` with N ≠ 0 -/
  | type5
  /-- `8XYN` with N ∈ 8, 9, A, B, C, D, F (42_register_alu.md R178) -/
  | type8
  /-- `9XYN` with N ≠ 0 -/
  | type9
  /-- `DXY0` -/
  | drawHeightZero
  /-- `EXNN` with NN other than 9E and A1 -/
  | typeE
  /-- `FXNN` with NN outside R86's nine sub-codes -/
  | typeF
  deriving DecidableEq, Repr

/-- Type 0: the sub-selector is the whole word. -/
def decodeType0 (w : Word) : Except Illegal Instr :=
  if w = 0x00E0 then .ok .cls
  else if w = 0x00EE then .ok .ret
  else .error .type0

/-- Type 8: the sub-selector is N. -/
def decodeType8 (x y : Reg) (n : Nibble) : Except Illegal Instr :=
  match n.toNat with
  | 0x0 => .ok (.ldVxVy x y)
  | 0x1 => .ok (.orVxVy x y)
  | 0x2 => .ok (.andVxVy x y)
  | 0x3 => .ok (.xorVxVy x y)
  | 0x4 => .ok (.addVxVy x y)
  | 0x5 => .ok (.subVxVy x y)
  | 0x6 => .ok (.shrVxVy x y)
  | 0x7 => .ok (.subnVxVy x y)
  | 0xE => .ok (.shlVxVy x y)
  | _ => .error .type8

/-- Type E: the sub-selector is NN. -/
def decodeTypeE (x : Reg) (nn : Byte) : Except Illegal Instr :=
  if nn = 0x9E then .ok (.skpVx x)
  else if nn = 0xA1 then .ok (.sknpVx x)
  else .error .typeE

/-- Type F: the sub-selector is NN. -/
def decodeTypeF (x : Reg) (nn : Byte) : Except Illegal Instr :=
  if nn = 0x07 then .ok (.ldVxDT x)
  else if nn = 0x0A then .ok (.ldVxK x)
  else if nn = 0x15 then .ok (.ldDTVx x)
  else if nn = 0x18 then .ok (.ldSTVx x)
  else if nn = 0x1E then .ok (.addIVx x)
  else if nn = 0x29 then .ok (.ldFVx x)
  else if nn = 0x33 then .ok (.ldBVx x)
  else if nn = 0x55 then .ok (.ldMemVx x)
  else if nn = 0x65 then .ok (.ldVxMem x)
  else .error .typeF

/-- The instruction a word stands for, or the name of its illegality: dispatch on Type, then on the sub-selector
(R86), exact on every fixed nibble (R87). -/
def decode (w : Word) : Except Illegal Instr :=
  let f := fields w
  let x : Reg := f.x.toFin
  let y : Reg := f.y.toFin
  match f.type.toNat with
  | 0x0 => decodeType0 w
  | 0x1 => .ok (.jpAddr f.nnn)
  | 0x2 => .ok (.callAddr f.nnn)
  | 0x3 => .ok (.seVxByte x f.nn)
  | 0x4 => .ok (.sneVxByte x f.nn)
  | 0x5 => if f.n = 0 then .ok (.seVxVy x y) else .error .type5
  | 0x6 => .ok (.ldVxByte x f.nn)
  | 0x7 => .ok (.addVxByte x f.nn)
  | 0x8 => decodeType8 x y f.n
  | 0x9 => if f.n = 0 then .ok (.sneVxVy x y) else .error .type9
  | 0xA => .ok (.ldIAddr f.nnn)
  | 0xB => .ok (.jpV0Addr f.nnn)
  | 0xC => .ok (.rndVxByte x f.nn)
  | 0xD => if f.n = 0 then .error .drawHeightZero else .ok (.drwVxVyNibble x y f.n)
  | 0xE => decodeTypeE x f.nn
  | _ => decodeTypeF x f.nn

/-- The instruction in two bytes of memory, the one at the lower address first. -/
def decodeBytes (hi lo : Byte) : Except Illegal Instr :=
  decode (bigEndian hi lo)

/-! ## The encoder (R82) -/

/-- The 4-bit field that names a register. -/
def regField (x : Reg) : Nibble := BitVec.ofFin x

/-- Format A: Type, NNN. -/
def formatA (type : Nibble) (nnn : Addr) : Word := type ++ nnn

/-- Formats XK and XS: Type, X, NN. -/
def formatXK (type : Nibble) (x : Reg) (nn : Byte) : Word := type ++ regField x ++ nn

/-- Formats XY and XYN: Type, X, Y, N. -/
def formatXY (type : Nibble) (x y : Reg) (n : Nibble) : Word := type ++ regField x ++ regField y ++ n

/-- The word of an instruction, from the patterns of R86. -/
def encode : Instr → Word
  | .cls => 0x00E0
  | .ret => 0x00EE
  | .jpAddr nnn => formatA 0x1 nnn
  | .callAddr nnn => formatA 0x2 nnn
  | .seVxByte x nn => formatXK 0x3 x nn
  | .sneVxByte x nn => formatXK 0x4 x nn
  | .seVxVy x y => formatXY 0x5 x y 0x0
  | .ldVxByte x nn => formatXK 0x6 x nn
  | .addVxByte x nn => formatXK 0x7 x nn
  | .ldVxVy x y => formatXY 0x8 x y 0x0
  | .orVxVy x y => formatXY 0x8 x y 0x1
  | .andVxVy x y => formatXY 0x8 x y 0x2
  | .xorVxVy x y => formatXY 0x8 x y 0x3
  | .addVxVy x y => formatXY 0x8 x y 0x4
  | .subVxVy x y => formatXY 0x8 x y 0x5
  | .shrVxVy x y => formatXY 0x8 x y 0x6
  | .subnVxVy x y => formatXY 0x8 x y 0x7
  | .shlVxVy x y => formatXY 0x8 x y 0xE
  | .sneVxVy x y => formatXY 0x9 x y 0x0
  | .ldIAddr nnn => formatA 0xA nnn
  | .jpV0Addr nnn => formatA 0xB nnn
  | .rndVxByte x nn => formatXK 0xC x nn
  | .drwVxVyNibble x y n => formatXY 0xD x y n
  | .skpVx x => formatXK 0xE x 0x9E
  | .sknpVx x => formatXK 0xE x 0xA1
  | .ldVxDT x => formatXK 0xF x 0x07
  | .ldVxK x => formatXK 0xF x 0x0A
  | .ldDTVx x => formatXK 0xF x 0x15
  | .ldSTVx x => formatXK 0xF x 0x18
  | .addIVx x => formatXK 0xF x 0x1E
  | .ldFVx x => formatXK 0xF x 0x29
  | .ldBVx x => formatXK 0xF x 0x33
  | .ldMemVx x => formatXK 0xF x 0x55
  | .ldVxMem x => formatXK 0xF x 0x65

/-! ## The rows of spec/opcode_table.json -/

/-- The `mask` of the instruction's row: which bits of its pattern are fixed. -/
def rowMask : Instr → Word
  | .cls => 0xFFFF
  | .ret => 0xFFFF
  | .jpAddr _ => 0xF000
  | .callAddr _ => 0xF000
  | .seVxByte _ _ => 0xF000
  | .sneVxByte _ _ => 0xF000
  | .seVxVy _ _ => 0xF00F
  | .ldVxByte _ _ => 0xF000
  | .addVxByte _ _ => 0xF000
  | .ldVxVy _ _ => 0xF00F
  | .orVxVy _ _ => 0xF00F
  | .andVxVy _ _ => 0xF00F
  | .xorVxVy _ _ => 0xF00F
  | .addVxVy _ _ => 0xF00F
  | .subVxVy _ _ => 0xF00F
  | .shrVxVy _ _ => 0xF00F
  | .subnVxVy _ _ => 0xF00F
  | .shlVxVy _ _ => 0xF00F
  | .sneVxVy _ _ => 0xF00F
  | .ldIAddr _ => 0xF000
  | .jpV0Addr _ => 0xF000
  | .rndVxByte _ _ => 0xF000
  | .drwVxVyNibble _ _ _ => 0xF000
  | .skpVx _ => 0xF0FF
  | .sknpVx _ => 0xF0FF
  | .ldVxDT _ => 0xF0FF
  | .ldVxK _ => 0xF0FF
  | .ldDTVx _ => 0xF0FF
  | .ldSTVx _ => 0xF0FF
  | .addIVx _ => 0xF0FF
  | .ldFVx _ => 0xF0FF
  | .ldBVx _ => 0xF0FF
  | .ldMemVx _ => 0xF0FF
  | .ldVxMem _ => 0xF0FF

/-- The `match` of the instruction's row: the value of its fixed bits. -/
def rowMatch : Instr → Word
  | .cls => 0x00E0
  | .ret => 0x00EE
  | .jpAddr _ => 0x1000
  | .callAddr _ => 0x2000
  | .seVxByte _ _ => 0x3000
  | .sneVxByte _ _ => 0x4000
  | .seVxVy _ _ => 0x5000
  | .ldVxByte _ _ => 0x6000
  | .addVxByte _ _ => 0x7000
  | .ldVxVy _ _ => 0x8000
  | .orVxVy _ _ => 0x8001
  | .andVxVy _ _ => 0x8002
  | .xorVxVy _ _ => 0x8003
  | .addVxVy _ _ => 0x8004
  | .subVxVy _ _ => 0x8005
  | .shrVxVy _ _ => 0x8006
  | .subnVxVy _ _ => 0x8007
  | .shlVxVy _ _ => 0x800E
  | .sneVxVy _ _ => 0x9000
  | .ldIAddr _ => 0xA000
  | .jpV0Addr _ => 0xB000
  | .rndVxByte _ _ => 0xC000
  | .drwVxVyNibble _ _ _ => 0xD000
  | .skpVx _ => 0xE09E
  | .sknpVx _ => 0xE0A1
  | .ldVxDT _ => 0xF007
  | .ldVxK _ => 0xF00A
  | .ldDTVx _ => 0xF015
  | .ldSTVx _ => 0xF018
  | .addIVx _ => 0xF01E
  | .ldFVx _ => 0xF029
  | .ldBVx _ => 0xF033
  | .ldMemVx _ => 0xF055
  | .ldVxMem _ => 0xF065

/-! ## The host's entry to the decoder -/

/-- The one 16-bit word of an instruction whose `nbits` table bits are `w`, bit 0 the least significant; every bit
above `nbits` is 0. -/
def tableWord (nbits w : Nat) : Word := BitVec.ofNat 16 (w % 2 ^ nbits)

/-- What the decoder reads from that word, laid out as the hardware stores it (big-endian). -/
def decodeTableWord (nbits w : Nat) : Option Instr :=
  match decodeBytes (highByte (tableWord nbits w)) (lowByte (tableWord nbits w)) with
  | .ok i => some i
  | .error _ => none

end Sys2Proof
end

