-- ==== Sys2Proof/Config.lean ====
section
/-! DEFINITION. The implementation parameters of 00_scope.md R6 and the free values of the block.
A parameter to which the spec gives a value is a definition with that value; what the spec leaves OPEN, or calls
a draw or unspecified, is an opaque constant that nothing in Lean can evaluate. -/

namespace Sys2Proof

/-! ## Sizes and bases -/

/-- `MEM_SIZE`: addresses 0x000–0xFFF. -/
@[simp] abbrev Config.memSize : Nat := 4096

/-- `PROG_BASE`: where Load writes the program and where PC starts. -/
@[simp] abbrev Config.progBase : Nat := 0x200

/-- `FONT_BASE`: where Reset installs the font table. -/
@[simp] abbrev Config.fontBase : Nat := 0x000

/-- `GLYPH_BYTES`: the bytes of one glyph. -/
@[simp] abbrev Config.glyphBytes : Nat := 5

/-- `WIDTH`: pixel columns. -/
@[simp] abbrev Config.width : Nat := 64

/-- `HEIGHT`: pixel rows. -/
@[simp] abbrev Config.height : Nat := 32

/-- `STACK_DEPTH`: stack slots. -/
@[simp] abbrev Config.stackDepth : Nat := 16

/-- `KEYS`: keys of the keypad. -/
@[simp] abbrev Config.keyCount : Nat := 16

/-! ## The font table (20_memory.md R62) -/

/-- Glyphs 0–7. PRESUMED: the spec's default `FONT`, from general knowledge (D27; log entry 6). -/
def Config.glyphsLow : List (List Byte) :=
  [[0xF0, 0x90, 0x90, 0x90, 0xF0],
   [0x20, 0x60, 0x20, 0x20, 0x70],
   [0xF0, 0x10, 0xF0, 0x80, 0xF0],
   [0xF0, 0x10, 0xF0, 0x10, 0xF0],
   [0x90, 0x90, 0xF0, 0x10, 0x10],
   [0xF0, 0x80, 0xF0, 0x10, 0xF0],
   [0xF0, 0x80, 0xF0, 0x90, 0xF0],
   [0xF0, 0x10, 0x20, 0x40, 0x40]]

/-- Glyphs 8–E. PRESUMED, as `Config.glyphsLow` (log entry 6). -/
def Config.glyphsHigh : List (List Byte) :=
  [[0xF0, 0x90, 0xF0, 0x90, 0xF0],
   [0xF0, 0x90, 0xF0, 0x10, 0xF0],
   [0xF0, 0x90, 0xF0, 0x90, 0x90],
   [0xE0, 0x90, 0xE0, 0x90, 0xE0],
   [0xF0, 0x80, 0x80, 0x80, 0xF0],
   [0xE0, 0x90, 0x90, 0x90, 0xE0],
   [0xF0, 0x80, 0xF0, 0x80, 0xF0]]

/-- Glyph F, the one glyph whose bytes the source prints (R62). -/
def Config.glyphF : List Byte := [0xF0, 0x80, 0xF0, 0x80, 0x80]

/-- `FONT`: the 80 bytes that Reset installs at `FONT_BASE`. -/
def Config.font : List Byte :=
  (Config.glyphsLow ++ Config.glyphsHigh ++ [Config.glyphF]).flatten

/-! ## Named policies -/

/-- What becomes of a sprite bit whose target lies outside the frame buffer (44_display.md R236). -/
inductive EdgePolicy where
  | clip
  | wrap
  deriving DecidableEq, Repr

/-- Which register the shifts 8XY6 and 8XYE read (42_register_alu.md R173, 93_implementation_defined.md I25). -/
inductive ShiftSource where
  | vx
  | vy
  deriving DecidableEq, Repr

/-- What a key skip does with a key number ≥ 16 (45_timers_keypad.md R263). -/
inductive KeyIndexPolicy where
  | fault
  | lowNibble
  deriving DecidableEq, Repr

/-- `EDGE_POLICY`, the spec's value (D11; log entry 7). -/
def Config.edgePolicy : EdgePolicy := .clip

/-- `SHIFT_SOURCE`, the spec's value (D7; log entry 8). -/
def Config.shiftSource : ShiftSource := .vx

/-- `KEY_INDEX_POLICY`, the spec's value (D13; log entry 9). -/
def Config.keyIndexPolicy : KeyIndexPolicy := .fault

/-! ## Open parameters and free values -/

/-- The OPEN type `RngState` of R40, held as a number (DESIGN CHOICE, log entry 4). -/
abbrev RngState := Nat

/-- The OPEN type `Seed` of R40, held as a number (DESIGN CHOICE, log entry 4). -/
abbrev Seed := Nat

/-- `RNG_INIT` (R40): OPEN. -/
opaque Config.rngInit : Seed → RngState

/-- `RNG_NEXT` (R40): OPEN. -/
opaque Config.rngNext : RngState → Byte × RngState

/-- `ENTROPY`, the draw of a Reset with no configured seed (R340, I5): a free value, fresh for each draw number. -/
opaque Config.entropy : Nat → Seed

/-- `KEYS`, the keypad sample of a Step whose input port nothing is assumed about (R320, I17): a free value,
fresh for each draw number. -/
opaque Config.keys : Nat → Word

/-- The contents of state the spec calls unspecified (R346, R348): a free value for each draw number and each item. -/
opaque Config.unspecified : Nat → Nat → Nat

end Sys2Proof
end

