-- ==== Sys2Proof/Machine/State.lean ====
section
/-! DEFINITION. The architectural state (10_state.md R20–R51), the reasons a Step can stop, and the state after Reset. -/

namespace Sys2Proof.Machine

/-- The error kinds of 60_exceptions.md R300, the complete set (R301). An error is no fault of the model: a Step that
raises one goes to the next state that R303 describes (log entry 1). -/
inductive ErrorKind where
  /-- a word that R86 does not list, or a key number ≥ 16 in EX9E and EXA1 -/
  | invalidOpcode
  /-- 2NNN with SP = 16 -/
  | stackOverflow
  /-- 00EE with SP = 0 -/
  | stackUnderflow
  /-- a fetch, or an access through I, outside the 4096 bytes; or a fetch at an odd PC -/
  | memoryOutOfBounds
  /-- `Load` only, never a Step -/
  | programTooLarge
  deriving DecidableEq, Repr

/-- The engine state `E` of R30. -/
inductive Engine where
  /-- Step fetches and executes -/
  | running
  /-- an error ended the program; Step changes nothing (R305) -/
  | halted (kind : ErrorKind)
  /-- FX0A waits for a key into V[x] (R265, R266) -/
  | awaitingKey (x : Reg)
  /-- before the first Reset and after a failed Load; Step is refused (R306) -/
  | unreset
  deriving DecidableEq, Repr

/-- Memory: the (address, byte) pairs that differ from an unlisted address's byte, addresses rising
(`Memory.wf`; an unlisted address reads as `Memory.initial`). -/
abbrev Memory := List Host.Cell

/-- The frame buffer `FB[x][y]`: 64 columns of 32 rows (44_display.md R230). -/
abbrev FrameBuffer := Vector (Vector Bool 32) 64

/-- The state of the block: R45's table, and after it two fields of the model's own that stand for the inputs the
host supplies (log entries 2 and 3). -/
structure State where
  /-- V0–VF (R20) -/
  v : Vector Byte 16
  /-- the index register I (R23) -/
  i : Word
  /-- the program counter (R24) -/
  pc : Word
  /-- SP, the count of saved return addresses, 0..16 (R28) -/
  sp : Fin 17
  /-- the call stack's slots (R27) -/
  stack : Vector Word 16
  /-- the delay timer (R29) -/
  dt : Byte
  /-- the sound timer (R29) -/
  st : Byte
  /-- the 4096 bytes of memory (R33, R60) -/
  mem : Memory
  /-- the frame buffer (R32) -/
  fb : FrameBuffer
  /-- the engine state E (R30) -/
  engine : Engine
  /-- the randomness source (R40) -/
  rng : RngState
  /-- the configured seed (R41) -/
  seedCfg : Option Seed
  /-- MODEL's own: what the host is assumed to hold on the keypad port; `none` assumes nothing (log entry 2) -/
  keyPort : Option Word
  /-- MODEL's own: how many free inputs have been drawn (log entry 3) -/
  draws : Nat
  deriving DecidableEq, Repr

/-- Faults: none. Every condition under which the spec stops an instruction is an error with a described effect, a
next state (R303), so no Step of this model answers a fault. Safe: nothing that could execute is stopped here. -/
inductive Fault where
  deriving DecidableEq, Repr

/-- Refusals: where the spec itself gives no meaning. -/
inductive Refusal where
  /-- Raised by `exec` alone, for an instruction without a meaning. No arm raises it. Safe. -/
  | notModelled (mnemonic : String)
  /-- Raised by `step` in the engine state Unreset, which R306 refuses. Safe. -/
  | unreset
  /-- Raised by an observer whose argument is out of range, which R50 refuses. Safe. -/
  | observerOutOfRange
  deriving DecidableEq, Repr

/-- The three outcomes of a Step. -/
abbrev Result := Host.Outcome State Fault Refusal

/-- The state right after Reset with no configured seed (R45, 70_reset_and_hazards.md R340). Memory lists nothing,
since an unlisted address reads as its reset content. The entropy draw is draw 0 (log entry 5). -/
def State.reset : State where
  v := Vector.replicate 16 0
  i := 0
  pc := 0x200
  sp := 0
  stack := Vector.replicate 16 0
  dt := 0
  st := 0
  mem := []
  fb := Vector.replicate 64 (Vector.replicate 32 false)
  engine := .running
  rng := Config.rngInit (Config.entropy 0)
  seedCfg := none
  keyPort := none
  draws := 1

end Sys2Proof.Machine
end

