-- ==== Sys2Proof/Machine/Ops.lean ====
section
/-! DEFINITION. The named operations on memory, registers, stack, keypad port, randomness and engine state, among
them the one operation that takes an error (60_exceptions.md R303). -/

namespace Sys2Proof.Machine

/-! ## Memory (20_memory.md) -/

/-- What an unlisted address reads as: its reset content, the font table or 0 (R61, R62). -/
def Memory.initial (a : Nat) : Byte :=
  if Config.fontBase ≤ a then Config.font.getD (a - Config.fontBase) 0 else 0

/-- The canonical form: addresses rise strictly, every listed address exists, and no listed byte equals what an
unlisted address reads as. -/
def Memory.wf : Memory → Bool
  | [] => true
  | (a, b) :: m => a < Config.memSize && b != Memory.initial a && m.all (fun c => a < c.1) && Memory.wf m

/-- `MemRead(a, 1)` (R72). -/
def Memory.read (m : Memory) (a : Nat) : Byte :=
  match m with
  | [] => Memory.initial a
  | (c, b) :: m => if c = a then b else Memory.read m a

/-- Lists the byte `b` at `a`, in its place. -/
def Memory.put (m : Memory) (a : Nat) (b : Byte) : Memory :=
  match m with
  | [] => [(a, b)]
  | (c, d) :: m =>
    if a < c then (a, b) :: (c, d) :: m
    else if a = c then (a, b) :: m
    else (c, d) :: Memory.put m a b

/-- Unlists `a`. -/
def Memory.drop (m : Memory) (a : Nat) : Memory := m.filter (fun c => c.1 != a)

/-- `MemWrite(a, 1, b)` (R72), keeping the canonical form. -/
def Memory.write (m : Memory) (a : Nat) (b : Byte) : Memory :=
  if b = Memory.initial a then Memory.drop m a else Memory.put m a b

/-- The check of R66: the `n` bytes from `a` up all exist. The sum is exact. -/
def Memory.inBounds (a n : Nat) : Bool := a + n ≤ Config.memSize

/-- The `n` bytes from `a` up. -/
def Memory.readBytes (m : Memory) (a n : Nat) : List Byte :=
  (List.range n).map (fun k => m.read (a + k))

/-- Writes the bytes from `a` up, one at a time, ascending. -/
def Memory.writeBytes (m : Memory) (a : Nat) : List Byte → Memory
  | [] => m
  | b :: bs => Memory.writeBytes (m.write a b) (a + 1) bs

/-- The memory whose byte at each address `a` is `f a`, in canonical form. -/
def Memory.ofFn (f : Nat → Byte) : Memory :=
  (List.range Config.memSize).filterMap
    (fun a => if f a = Memory.initial a then none else some (a, f a))

/-- `MemRead(a, 2)` (R72): `mem[a] ++ mem[a+1]`. -/
def Memory.readWord (m : Memory) (a : Nat) : Word := bigEndian (m.read a) (m.read (a + 1))

/-- Stores each word as two big-endian bytes from `a` up (70_reset_and_hazards.md R345). -/
def Memory.writeWords (m : Memory) (a : Nat) (ws : List Word) : Memory :=
  Memory.writeBytes m a (ws.flatMap (fun w => [highByte w, lowByte w]))

/-! ## Registers (10_state.md R20–R24) -/

/-- V[r]. -/
def State.getV (s : State) (r : Reg) : Byte := s.v.get r

/-- `V[r] <- b`. No register is hardwired (R20). -/
def State.setV (s : State) (r : Reg) (b : Byte) : State := { s with v := s.v.set r b }

/-- The number of VF, `FLAG_REG` (R6). -/
abbrev flagReg : Reg := 0xF

/-- `VF <- b`. -/
def State.setFlag (s : State) (b : Byte) : State := s.setV flagReg b

/-- `I <- a`. -/
def State.setI (s : State) (a : Word) : State := { s with i := a }

/-- `PC <- target`; the target is checked by the next fetch only (R26, R139). -/
def State.jump (s : State) (target : Word) : State := { s with pc := target }

/-- `PC <- PC + k` (40_dispatch.md R106). -/
def State.advance (s : State) (k : Word) : State := s.jump (s.pc + k)

/-- `V[0..x] <- bytes`, as far as X names registers; the others keep their values (43_index_memory.md R205). -/
def State.loadRegs (s : State) (x : Reg) (bytes : List Byte) : State :=
  { s with v := Vector.ofFn (fun r : Reg => if r ≤ x then bytes.getD r.val 0 else s.getV r) }

/-- The bytes `V[0..x]` (43_index_memory.md R204). -/
def State.regBytes (s : State) (x : Reg) : List Byte :=
  ((List.finRange 16).take (x.val + 1)).map s.getV

/-! ## The call stack (10_state.md R27, R28) -/

/-- `stack[SP] <- a; SP <- SP + 1`, or nothing when the stack is full (41_control_flow.md R132). -/
def State.push (s : State) (a : Word) : Option State :=
  if h : s.sp.val < Config.stackDepth then
    some { s with stack := s.stack.set s.sp.val a, sp := ⟨s.sp.val + 1, by simp at h; omega⟩ }
  else none

/-- `SP <- SP - 1` and the slot then named, which keeps its value; or nothing when the stack is empty
(41_control_flow.md R130). -/
def State.pop (s : State) : Option (Word × State) :=
  if h : 0 < s.sp.val then
    some (s.stack[s.sp.val - 1]'(by omega), { s with sp := ⟨s.sp.val - 1, by omega⟩ })
  else none

/-! ## Randomness (10_state.md R40) -/

/-- `rng_byte()`: one draw. -/
def State.rngByte (s : State) : Byte × State :=
  ((Config.rngNext s.rng).1, { s with rng := (Config.rngNext s.rng).2 })

/-! ## The keypad port (60_exceptions.md R320) -/

/-- The sample of this Step: what the host is assumed to hold on the port, else a free value (log entry 2). -/
def State.keys (s : State) : Word :=
  match s.keyPort with
  | some k => k
  | none => Config.keys s.draws

/-- Whether key `k` is held in this Step's sample. -/
def State.keyHeld (s : State) (k : Reg) : Bool := s.keys.getLsbD k.val

/-- The least i with KEYS[i] = 1, if any key is held (45_timers_keypad.md R266, D14). -/
def firstKey (keys : Word) : Option Reg :=
  (List.finRange 16).find? (fun k => keys.getLsbD k.val)

/-! ## Errors (60_exceptions.md R303) -/

/-- `E <- Halted(k)`, and nothing else. -/
def State.halt (s : State) (k : ErrorKind) : State := { s with engine := .halted k }

/-- Taking an error: the Step ends in the state of R303. -/
def raise (k : ErrorKind) (s : State) : Result := .next (s.halt k)

/-! ## The Step's own bookkeeping -/

/-- One Step's keypad sample has been drawn (log entry 3). -/
def State.sampled (s : State) : State := { s with draws := s.draws + 1 }

/-- Ends a Step that sampled the keypad. -/
def finishStep : Result → Result
  | .next t => .next t.sampled
  | .fault f => .fault f
  | .refused r => .refused r

/-- The numbers of the error kinds (R300, D18). -/
def ErrorKind.code : ErrorKind → Nat
  | .invalidOpcode => 1
  | .stackOverflow => 2
  | .stackUnderflow => 3
  | .memoryOutOfBounds => 4
  | .programTooLarge => 5

end Sys2Proof.Machine
end

