-- ==== Sys2Proof/Machine/Flags.lean ====
section
/-! DEFINITION. The results and flag values of the register instructions (42_register_alu.md R171–R177). -/

namespace Sys2Proof.Machine

/-- A flag value, 0 or 1 (R161). -/
def flag (b : Bool) : Byte := if b then 1 else 0

/-- The carry of 8XY4: the exact sum exceeds 255 (R171). -/
def carryFlag (a b : Byte) : Byte := flag (a.toNat + b.toNat > 255)

/-- The flag of 8XY5 and 8XY7: strictly greater (R172, R174). -/
def greaterFlag (a b : Byte) : Byte := flag (a.toNat > b.toNat)

/-- The bit that 8XY6 shifts out (R173). -/
def lsbFlag (b : Byte) : Byte := b &&& 1

/-- The bit that 8XYE shifts out (R175). -/
def msbFlag (b : Byte) : Byte := (b >>> 7) &&& 1

/-- VF first, V[X] second, so that with X = F the result stays (R161). -/
def State.setFlagThenV (s : State) (x : Reg) (flagValue result : Byte) : State :=
  (s.setFlag flagValue).setV x result

end Sys2Proof.Machine
end

