-- ==== Sys2Proof/Machine/Operands.lean ====
section
/-! DEFINITION. The operand forms (30_encoding.md R83): zero-extended addresses, the register-indirect ranges
through I, the shift source and the key number. -/

namespace Sys2Proof.Machine

/-- NNN, zero-extended to 16 bits. -/
def addrOperand (nnn : Addr) : Word := nnn.setWidth 16

/-- NNN + V0, an exact sum (41_control_flow.md R133). -/
def State.offsetTarget (s : State) (nnn : Addr) : Word :=
  addrOperand nnn + (s.getV 0).setWidth 16

/-- The address in I, as a number. -/
def State.indexAddr (s : State) : Nat := s.i.toNat

/-- How many bytes FX55 and FX65 move. -/
def regCount (x : Reg) : Nat := x.val + 1

/-- The register a shift reads, by the convention in force (R173, I25). -/
def shiftOperand (src : ShiftSource) (s : State) (x y : Reg) : Byte :=
  match src with
  | .vx => s.getV x
  | .vy => s.getV y

/-- The key a key skip tests, or none where the number is no key and the policy is to raise
(45_timers_keypad.md R263). -/
def keyOperand (policy : KeyIndexPolicy) (b : Byte) : Option Reg :=
  if h : b.toNat < Config.keyCount then some ⟨b.toNat, h⟩
  else
    match policy with
    | .fault => none
    | .lowNibble => some (b.extractLsb' 0 4).toFin

/-- The decimal digits of a byte, hundreds first (43_index_memory.md R203). -/
def bcdDigits (b : Byte) : List Byte := [b / 100, b / 10 % 10, b % 10]

/-- `FONT_BASE + GLYPH_BYTES · b`, unmasked (43_index_memory.md R202). -/
def glyphAddr (b : Byte) : Word :=
  BitVec.ofNat 16 Config.fontBase + b.setWidth 16 * BitVec.ofNat 16 Config.glyphBytes

/-- PC's advance over a skip: 4 when the condition holds, else 2 (10_state.md R25). -/
def skipDistance (cond : Bool) : Word := if cond then 4 else 2

end Sys2Proof.Machine
end

