-- ==== Sys2Proof/Machine/Alu.lean ====
section
/-! DEFINITION. Register loads, arithmetic, logic, shifts and random (42_register_alu.md). -/

namespace Sys2Proof.Machine

/-- `V[X] <- b`, and on to the next instruction; no flag. -/
def writeReg (x : Reg) (b : Byte) (s : State) : Result := .next ((s.setV x b).advance 2)

/-- VF, then V[X], and on to the next instruction (R161). -/
def writeFlagAndReg (x : Reg) (flagValue result : Byte) (s : State) : Result :=
  .next ((s.setFlagThenV x flagValue result).advance 2)

/-- `6XNN` (R165). -/
def execLdVxByte (x : Reg) (nn : Byte) (s : State) : Result := writeReg x nn s

/-- `7XNN` (R166): no flag, even on overflow. -/
def execAddVxByte (x : Reg) (nn : Byte) (s : State) : Result := writeReg x (s.getV x + nn) s

/-- `8XY0` (R167). -/
def execLdVxVy (x y : Reg) (s : State) : Result := writeReg x (s.getV y) s

/-- `8XY1` (R168). -/
def execOrVxVy (x y : Reg) (s : State) : Result := writeReg x (s.getV x ||| s.getV y) s

/-- `8XY2` (R169). -/
def execAndVxVy (x y : Reg) (s : State) : Result := writeReg x (s.getV x &&& s.getV y) s

/-- `8XY3` (R170). -/
def execXorVxVy (x y : Reg) (s : State) : Result := writeReg x (s.getV x ^^^ s.getV y) s

/-- `8XY4` (R171). -/
def execAddVxVy (x y : Reg) (s : State) : Result :=
  writeFlagAndReg x (carryFlag (s.getV x) (s.getV y)) (s.getV x + s.getV y) s

/-- `8XY5` (R172). -/
def execSubVxVy (x y : Reg) (s : State) : Result :=
  writeFlagAndReg x (greaterFlag (s.getV x) (s.getV y)) (s.getV x - s.getV y) s

/-- `8XY6` (R173). -/
def execShrVxVy (x y : Reg) (s : State) : Result :=
  writeFlagAndReg x (lsbFlag (shiftOperand Config.shiftSource s x y))
    (shiftOperand Config.shiftSource s x y >>> 1) s

/-- `8XY7` (R174). -/
def execSubnVxVy (x y : Reg) (s : State) : Result :=
  writeFlagAndReg x (greaterFlag (s.getV y) (s.getV x)) (s.getV y - s.getV x) s

/-- `8XYE` (R175). -/
def execShlVxVy (x y : Reg) (s : State) : Result :=
  writeFlagAndReg x (msbFlag (shiftOperand Config.shiftSource s x y))
    (shiftOperand Config.shiftSource s x y <<< 1) s

/-- `CXNN` (R176): exactly one draw, also when NN = 0. -/
def execRndVxByte (x : Reg) (nn : Byte) (s : State) : Result :=
  writeReg x (s.rngByte.1 &&& nn) s.rngByte.2

end Sys2Proof.Machine
end

