-- ==== Sys2Proof/Machine/Control.lean ====
section
/-! DEFINITION. Control transfer: 00EE, 1NNN, 2NNN, BNNN and the register skips (41_control_flow.md). -/

namespace Sys2Proof.Machine

/-- `00EE` (R130): the saved value is the call site, so the return goes 2 beyond it. -/
def execRet (s : State) : Result :=
  match s.pop with
  | none => raise .stackUnderflow s
  | some (site, t) => .next (t.jump (site + 2))

/-- `1NNN` (R131). -/
def execJpAddr (nnn : Addr) (s : State) : Result := .next (s.jump (addrOperand nnn))

/-- `2NNN` (R132): saves the address of the call itself. -/
def execCallAddr (nnn : Addr) (s : State) : Result :=
  match s.push s.pc with
  | none => raise .stackOverflow s
  | some t => .next (t.jump (addrOperand nnn))

/-- `BNNN` (R133). -/
def execJpV0Addr (nnn : Addr) (s : State) : Result := .next (s.jump (s.offsetTarget nnn))

/-- A skip (R138). -/
def skipIf (cond : Bool) (s : State) : Result := .next (s.advance (skipDistance cond))

/-- `3XNN` (R134). -/
def execSeVxByte (x : Reg) (nn : Byte) (s : State) : Result := skipIf (s.getV x == nn) s

/-- `4XNN` (R135). -/
def execSneVxByte (x : Reg) (nn : Byte) (s : State) : Result := skipIf (s.getV x != nn) s

/-- `5XY0` (R136). -/
def execSeVxVy (x y : Reg) (s : State) : Result := skipIf (s.getV x == s.getV y) s

/-- `9XY0` (R137). -/
def execSneVxVy (x y : Reg) (s : State) : Result := skipIf (s.getV x != s.getV y) s

end Sys2Proof.Machine
end

