-- ==== Sys2Proof/Machine/Display.lean ====
section
/-! DEFINITION. The frame buffer with its XOR compositor, and 00E0 and DXYN (44_display.md). -/

namespace Sys2Proof.Machine

/-! ## The frame buffer (R230–R238) -/

/-- `FB[x][y]`. -/
def FrameBuffer.pixel (fb : FrameBuffer) (x : Fin 64) (y : Fin 32) : Bool := (fb.get x).get y

/-- `Clear()` (R232). -/
def FrameBuffer.clear (_ : FrameBuffer) : FrameBuffer :=
  Vector.replicate 64 (Vector.replicate 32 false)

/-- `FB[x][y] <- not FB[x][y]`. -/
def FrameBuffer.toggle (fb : FrameBuffer) (x : Fin 64) (y : Fin 32) : FrameBuffer :=
  fb.set x ((fb.get x).set y (!fb.pixel x y))

/-- The pixel that a target column and row reach under an edge policy, or none where the bit is dropped
(R233, R236). The coordinates are exact. -/
def edgeTarget (policy : EdgePolicy) (tx ty : Nat) : Option (Fin 64 × Fin 32) :=
  match policy with
  | .clip =>
    if h : tx < Config.width ∧ ty < Config.height then some (⟨tx, h.1⟩, ⟨ty, h.2⟩) else none
  | .wrap => some (Fin.ofNat 64 tx, Fin.ofNat 32 ty)

/-- A draw in progress: the frame buffer and the collision so far. -/
abbrev Drawing := FrameBuffer × Bool

/-- One sprite bit: it is XORed with its pixel, and an on pixel turned off is a collision (R233, R234). -/
def drawBit (policy : EdgePolicy) (tx ty : Nat) (bit : Bool) (d : Drawing) : Drawing :=
  match edgeTarget policy tx ty with
  | none => d
  | some (x, y) => if bit then (d.1.toggle x y, d.2 || d.1.pixel x y) else d

/-- The sprite bit for column offset c is bit 7 − c, the most significant bit leftmost (R238). -/
def spriteBit (row : Byte) (c : Nat) : Bool := row.getLsbD (7 - c)

/-- One sprite row. -/
def drawRow (policy : EdgePolicy) (xa ty : Nat) (row : Byte) (d : Drawing) : Drawing :=
  (List.range 8).foldl (fun d c => drawBit policy (xa + c) ty (spriteBit row c) d) d

/-- The sprite rows from target row `ty` down. -/
def drawRows (policy : EdgePolicy) (xa ty : Nat) : List Byte → Drawing → Drawing
  | [], d => d
  | row :: rows, d => drawRows policy xa (ty + 1) rows (drawRow policy xa ty row d)

/-- `Draw(xa, ya, rows)` (R233): the new frame buffer and the collision. Total (R235). -/
def FrameBuffer.draw (fb : FrameBuffer) (policy : EdgePolicy) (xa ya : Byte) (rows : List Byte) : Drawing :=
  drawRows policy xa.toNat ya.toNat rows (fb, false)

/-! ## The instructions -/

/-- `00E0` (R240). -/
def execCls (s : State) : Result := .next (({ s with fb := s.fb.clear } : State).advance 2)

/-- What DXYN draws: the anchors are the registers' values before VF is written (R241). -/
def State.drawing (s : State) (x y : Reg) (n : Nibble) : Drawing :=
  s.fb.draw Config.edgePolicy (s.getV x) (s.getV y) (s.mem.readBytes s.indexAddr n.toNat)

/-- `DXYN` (R241): the range check comes first and does not depend on where the sprite falls. -/
def execDrwVxVyNibble (x y : Reg) (n : Nibble) (s : State) : Result :=
  if Memory.inBounds s.indexAddr n.toNat then
    .next ((({ s with fb := (s.drawing x y n).1 } : State).setFlag (flag (s.drawing x y n).2)).advance 2)
  else raise .memoryOutOfBounds s

end Sys2Proof.Machine
end

