-- ==== Sys2Proof/Machine/IndexMemory.lean ====
section
/-! DEFINITION. Index register and memory instructions (43_index_memory.md). -/

namespace Sys2Proof.Machine

/-- `ANNN` (R200). -/
def execLdIAddr (nnn : Addr) (s : State) : Result := .next ((s.setI (addrOperand nnn)).advance 2)

/-- `FX1E` (R201): wraps at 16 bits, no flag. -/
def execAddIVx (x : Reg) (s : State) : Result :=
  .next ((s.setI (s.i + (s.getV x).setWidth 16)).advance 2)

/-- `FX29` (R202): no mask. -/
def execLdFVx (x : Reg) (s : State) : Result := .next ((s.setI (glyphAddr (s.getV x))).advance 2)

/-- Stores bytes from I up, after the range check of R66; I is unchanged. -/
def storeAtI (bytes : List Byte) (s : State) : Result :=
  if Memory.inBounds s.indexAddr bytes.length then
    .next (({ s with mem := s.mem.writeBytes s.indexAddr bytes } : State).advance 2)
  else raise .memoryOutOfBounds s

/-- `FX33` (R203). -/
def execLdBVx (x : Reg) (s : State) : Result := storeAtI (bcdDigits (s.getV x)) s

/-- `FX55` (R204). -/
def execLdMemVx (x : Reg) (s : State) : Result := storeAtI (s.regBytes x) s

/-- `FX65` (R205). -/
def execLdVxMem (x : Reg) (s : State) : Result :=
  if Memory.inBounds s.indexAddr (regCount x) then
    .next ((s.loadRegs x (s.mem.readBytes s.indexAddr (regCount x))).advance 2)
  else raise .memoryOutOfBounds s

end Sys2Proof.Machine
end

