-- ==== Sys2Proof/Machine/TimersKeypad.lean ====
section
/-! DEFINITION. Timer and keypad instructions, and the Step that waits for a key (45_timers_keypad.md). -/

namespace Sys2Proof.Machine

/-- `FX07` (R260). -/
def execLdVxDT (x : Reg) (s : State) : Result := writeReg x s.dt s

/-- `FX15` (R261). -/
def execLdDTVx (x : Reg) (s : State) : Result :=
  .next (({ s with dt := s.getV x } : State).advance 2)

/-- `FX18` (R262). -/
def execLdSTVx (x : Reg) (s : State) : Result :=
  .next (({ s with st := s.getV x } : State).advance 2)

/-- A key skip: taken when key V[X]'s bit in the Step's sample equals `held` (R263, R264; PRESUMED by the spec from
general knowledge, log entry 11). -/
def keySkip (x : Reg) (held : Bool) (s : State) : Result :=
  match keyOperand Config.keyIndexPolicy (s.getV x) with
  | none => raise .invalidOpcode s
  | some k => skipIf (s.keyHeld k == held) s

/-- `EX9E` (R263). -/
def execSkpVx (x : Reg) (s : State) : Result := keySkip x true s

/-- `EXA1` (R264). -/
def execSknpVx (x : Reg) (s : State) : Result := keySkip x false s

/-- `FX0A` (R265): enters AwaitingKey(X); PC stays, and the Step's sample is not used. -/
def execLdVxK (x : Reg) (s : State) : Result := .next { s with engine := .awaitingKey x }

/-- `KeyWait(x, KEYS)` (R266): a Step in AwaitingKey(x). -/
def State.keyWait (s : State) (x : Reg) : State :=
  match firstKey s.keys with
  | none => s
  | some k => { (s.setV x (BitVec.ofNat 8 k.val)).advance 2 with engine := .running }

end Sys2Proof.Machine
end

