-- ==== Sys2Proof/Machine/Fetch.lean ====
section
/-! DEFINITION. Fetch, decode and dispatch (40_dispatch.md R101–R103), with their two checks in R307's order. -/

namespace Sys2Proof.Machine

/-- The fetch check: PC even, and PC and PC + 1 addresses of memory (R101). -/
def State.fetchable (s : State) : Bool :=
  s.pc.toNat % 2 == 0 && s.pc.toNat + 1 < Config.memSize

/-- The word at PC, read afresh at every Step (R70, R101). -/
def State.fetch (s : State) : Except ErrorKind Word :=
  if s.fetchable then .ok (s.mem.readWord s.pc.toNat) else .error .memoryOutOfBounds

/-- The instruction a word stands for; an unlisted word raises InvalidOpcode (R103). -/
def dispatchWord (w : Word) : Except ErrorKind Instr :=
  match decode w with
  | .ok i => .ok i
  | .error _ => .error .invalidOpcode

/-- The instruction at PC, or the error that the fetch or the dispatch raises. -/
def State.fetchInstr (s : State) : Except ErrorKind Instr :=
  match s.fetch with
  | .ok w => dispatchWord w
  | .error k => .error k

/-- The word `w` placed where the next Step fetches, and the engine set to fetch; nothing else changes. -/
def State.placeWord (s : State) (w : Word) : State :=
  { s with mem := s.mem.writeWords s.pc.toNat [w], engine := .running }

end Sys2Proof.Machine
end

