-- ==== Sys2Proof/Machine/Step.lean ====
section
/-! DEFINITION. The Step transaction (40_dispatch.md R107) and the host's placing of an instruction word. -/

namespace Sys2Proof.Machine

/-- One Step (R107). In Running it fetches, dispatches and runs one handler, or takes the error; in AwaitingKey it
only samples the keypad (R108); in Halted it does nothing, not even sample (R305); in Unreset it is refused (R306). -/
def step (s : State) : Host.Outcome State Fault Refusal :=
  match s.engine with
  | .unreset => .refused .unreset
  | .halted _ => .next s
  | .awaitingKey x => finishStep (.next (s.keyWait x))
  | .running =>
    match s.fetchInstr with
    | .error k => finishStep (raise k s)
    | .ok i => finishStep (exec i s)

/-- `s` with the instruction whose table bits are `w` stored at PC and the engine fetching, so that the next Step
runs it (log entry 20). -/
def State.withFetchWord (s : State) (nbits w : Nat) : State := s.placeWord (tableWord nbits w)

end Sys2Proof.Machine
end

