-- ==== Sys2Proof/Machine/Transactions.lean ====
section
/-! DEFINITION. The host's transactions and observers (00_scope.md R3): Reset, Seed, Load, TickTimers, the results of
a Step, the keypad port, and the observers of 10_state.md R50. -/

namespace Sys2Proof.Machine

/-! ## Unspecified state (70_reset_and_hazards.md R346, R348) -/

/-- A state of which nothing is known but its shape: every item is a free value of draw `n` (log entries 17, 19). -/
def State.unspecified (n : Nat) : State where
  v := Vector.ofFn (fun r : Fin 16 => BitVec.ofNat 8 (Config.unspecified n r.val))
  i := BitVec.ofNat 16 (Config.unspecified n 16)
  pc := BitVec.ofNat 16 (Config.unspecified n 17)
  sp := Fin.ofNat 17 (Config.unspecified n 18)
  stack := Vector.ofFn (fun k : Fin 16 => BitVec.ofNat 16 (Config.unspecified n (32 + k.val)))
  dt := BitVec.ofNat 8 (Config.unspecified n 19)
  st := BitVec.ofNat 8 (Config.unspecified n 20)
  mem := Memory.ofFn (fun a => BitVec.ofNat 8 (Config.unspecified n (4096 + a)))
  fb := Vector.ofFn (fun x : Fin 64 =>
    Vector.ofFn (fun y : Fin 32 => Config.unspecified n (8192 + 32 * x.val + y.val) % 2 == 1))
  engine := .unreset
  rng := Config.unspecified n 21
  seedCfg := if Config.unspecified n 22 = 0 then none else some (Config.unspecified n 23)
  keyPort := none
  draws := n

/-- Before the first Reset: everything unspecified but the configured seed, which is empty (R41, R348;
log entry 19). -/
def State.powerOn : State := { State.unspecified 0 with seedCfg := none }

/-! ## Reset, Seed, Load, TickTimers -/

/-- `Reset()` (R340): the state of `State.reset` but for the sticky seed, which also seeds `rng` when it is set;
otherwise the entropy is a fresh draw. -/
def State.hostReset (s : State) : State :=
  { State.reset with
    rng := match s.seedCfg with
      | some seed => Config.rngInit seed
      | none => Config.rngInit (Config.entropy s.draws)
    seedCfg := s.seedCfg
    keyPort := s.keyPort
    draws := s.draws + 1 }

/-- `Seed(value)` (R343). -/
def State.hostSeed (s : State) (value : Seed) : State :=
  { s with seedCfg := some value, rng := Config.rngInit value }

/-- The program's last byte lies at or below 0xFFF (R345). -/
def programFits (p : List Word) : Bool := Config.progBase + 2 * p.length ≤ Config.memSize

/-- `Load(p)` (R345): the size check comes first; a program that does not fit leaves the engine Unreset and every other
piece of the block's state unspecified (R346; log entry 17), and one that fits is written over a Reset. -/
def State.hostLoad (s : State) (p : List Word) : State :=
  if programFits p then
    { s.hostReset with mem := s.hostReset.mem.writeWords Config.progBase p }
  else { State.unspecified (s.draws + 1) with keyPort := s.keyPort }

/-- A timer after a tick: one less if nonzero. -/
def tickTimer (t : Byte) : Byte := if t = 0 then 0 else t - 1

/-- `TickTimers()` (60_exceptions.md R330): acts in every engine state. -/
def State.hostTick (s : State) : State := { s with dt := tickTimer s.dt, st := tickTimer s.st }

/-- What is assumed of the keypad port from here on: the host holds this sample, or nothing (log entry 2). -/
def State.hostKeys (s : State) (port : Option Word) : State := { s with keyPort := port }

/-! ## Results (40_dispatch.md R105) -/

/-- What a transaction returns. -/
inductive Status where
  | ok
  | err (kind : ErrorKind)
  | halted
  deriving DecidableEq, Repr

/-- The result of a Step that went from `s` to `t`: `Halted` if it was called in Halted, the kind if it raised an
error, else `Ok`. -/
def stepStatus (s t : State) : Status :=
  match s.engine with
  | .halted _ => .halted
  | _ =>
    match t.engine with
    | .halted k => .err k
    | _ => .ok

/-- The transactions of R3 that can change state, and the keypad port's. -/
inductive Transaction where
  | reset
  | seed (value : Seed)
  | load (p : List Word)
  | step
  | tickTimers
  | keys (port : Option Word)
  deriving DecidableEq, Repr

/-- One transaction: the state after it and what it returns, or the refusal of a Step in Unreset. The results are the
spec's for Step (R105) and Load (R345). DESIGN CHOICE: Reset, Seed and TickTimers, for which the spec gives no result, and
the model's own keypad transaction answer Ok (log entry 23). -/
def transact (t : Transaction) (s : State) : Host.Outcome (Status × State) Fault Refusal :=
  match t with
  | .reset => .next (.ok, s.hostReset)
  | .seed value => .next (.ok, s.hostSeed value)
  | .load p => .next (if programFits p then .ok else .err .programTooLarge, s.hostLoad p)
  | .step =>
    match Sys2Proof.Machine.step s with
    | .next u => .next (stepStatus s u, u)
    | .fault f => .fault f
    | .refused r => .refused r
  | .tickTimers => .next (.ok, s.hostTick)
  | .keys port => .next (.ok, s.hostKeys port)

/-- A run: transactions one after another (R3), with the result of each, stopping at the first that is refused.
Steps and ticks interleave as the list says (R331). -/
def runTransactions : List Transaction → State → Host.Outcome (List Status × State) Fault Refusal
  | [], s => .next ([], s)
  | t :: ts, s =>
    match transact t s with
    | .fault f => .fault f
    | .refused r => .refused r
    | .next (status, u) =>
      match runTransactions ts u with
      | .fault f => .fault f
      | .refused r => .refused r
      | .next (statuses, w) => .next (status :: statuses, w)

/-! ## Observers (10_state.md R50, 44_display.md R239) -/

/-- `PixelAt(x, y)`. -/
def State.pixelAt (s : State) (x y : Nat) : Except Refusal Bool :=
  if h : x < Config.width ∧ y < Config.height then .ok (s.fb.pixel ⟨x, h.1⟩ ⟨y, h.2⟩)
  else .error .observerOutOfRange

/-- `MemoryAt(addr)`. -/
def State.memoryAt (s : State) (addr : Nat) : Except Refusal Byte :=
  if addr < Config.memSize then .ok (s.mem.read addr) else .error .observerOutOfRange

/-- `RegisterAt(index)`. -/
def State.registerAt (s : State) (index : Nat) : Except Refusal Byte :=
  if h : index < 16 then .ok (s.getV ⟨index, h⟩) else .error .observerOutOfRange

/-- The observer `PC`. -/
def State.pcObserver (s : State) : Word := s.pc

/-- The observer `SP`. -/
def State.spObserver (s : State) : Nat := s.sp.val

/-- The observer `I`. -/
def State.iObserver (s : State) : Word := s.i

/-- The observer `DelayTimer`. -/
def State.delayTimer (s : State) : Byte := s.dt

/-- The observer `SoundTimer`. -/
def State.soundTimer (s : State) : Byte := s.st

end Sys2Proof.Machine
end

