-- ==== Sys2Proof/Safety.lean ====
section
/-! DEFINITION. The terms that claims use: what a well-kept state is, which part of the state an instruction may
change, where it stores, where PC goes, and which words are illegal. -/

namespace Sys2Proof.Machine

/-! ## The invariant -/

/-- What every transaction keeps. In Unreset the block's contents are unspecified (70_reset_and_hazards.md R346), so
only the shape of memory is claimed there. -/
structure State.Inv (s : State) : Prop where
  /-- memory is in canonical form -/
  memory : s.mem.wf = true
  /-- the largest value any instruction writes to PC is 0x10FE (10_state.md R26) -/
  pcBound : s.engine ≠ .unreset → s.pc.toNat ≤ 0x10FE
  /-- every saved return address is the even address of a fetched call (41_control_flow.md R130) -/
  savedAddresses : s.engine ≠ .unreset →
    ∀ k : Fin 16, k.val < s.sp.val → (s.stack.get k).toNat % 2 = 0 ∧ (s.stack.get k).toNat ≤ 0xFFE
  /-- `ProgramTooLarge` halts no engine (60_exceptions.md R300) -/
  haltKind : s.engine ≠ .halted .programTooLarge
  /-- while the engine waits for a key, PC is the address of the fetched FX0A (45_timers_keypad.md R265) -/
  waitingPc : ∀ x, s.engine = .awaitingKey x → s.pc.toNat % 2 = 0 ∧ s.pc.toNat ≤ 0xFFE

/-- No error has ended the program. -/
def State.live (s : State) : Bool :=
  match s.engine with
  | .running => true
  | .awaitingKey _ => true
  | .halted _ => false
  | .unreset => false

/-! ## Frames -/

/-- The parts of the state, each register file counted as one. -/
inductive Part where
  | v | i | pc | sp | stack | dt | st | mem | fb | engine | rng | seedCfg | keyPort | draws
  deriving DecidableEq, Repr

/-- The part is the same before and after: register by register, and every byte of memory by its read. -/
def Part.same (s t : State) : Part → Prop
  | .v => ∀ r : Reg, t.getV r = s.getV r
  | .i => t.i = s.i
  | .pc => t.pc = s.pc
  | .sp => t.sp = s.sp
  | .stack => t.stack = s.stack
  | .dt => t.dt = s.dt
  | .st => t.st = s.st
  | .mem => ∀ a, t.mem.read a = s.mem.read a
  | .fb => t.fb = s.fb
  | .engine => t.engine = s.engine
  | .rng => t.rng = s.rng
  | .seedCfg => t.seedCfg = s.seedCfg
  | .keyPort => t.keyPort = s.keyPort
  | .draws => t.draws = s.draws

/-- Every part outside the list is the same. -/
def SameBut (parts : List Part) (s t : State) : Prop := ∀ p, p ∉ parts → Part.same s t p

/-- Every general register but those is unchanged. -/
def OtherRegs (written : List Reg) (s t : State) : Prop :=
  ∀ r, r ∉ written → t.getV r = s.getV r

/-- The instruction runs to a next state, and that state is as said. -/
def Completes (i : Instr) (s : State) (post : State → Prop) : Prop :=
  ∃ t, exec i s = .next t ∧ post t

/-- The instruction raises the error, and nothing but the engine state changes (60_exceptions.md R303). -/
def Raises (i : Instr) (s : State) (k : ErrorKind) : Prop :=
  exec i s = .next { s with engine := .halted k }

/-- The parts an instruction may change besides, on an error, the engine state (10_state.md R21–R32). -/
def partsChanged : Instr → List Part
  | .cls => [.fb, .pc]
  | .ret => [.sp, .pc]
  | .jpAddr _ => [.pc]
  | .callAddr _ => [.stack, .sp, .pc]
  | .seVxByte _ _ => [.pc]
  | .sneVxByte _ _ => [.pc]
  | .seVxVy _ _ => [.pc]
  | .ldVxByte _ _ => [.v, .pc]
  | .addVxByte _ _ => [.v, .pc]
  | .ldVxVy _ _ => [.v, .pc]
  | .orVxVy _ _ => [.v, .pc]
  | .andVxVy _ _ => [.v, .pc]
  | .xorVxVy _ _ => [.v, .pc]
  | .addVxVy _ _ => [.v, .pc]
  | .subVxVy _ _ => [.v, .pc]
  | .shrVxVy _ _ => [.v, .pc]
  | .subnVxVy _ _ => [.v, .pc]
  | .shlVxVy _ _ => [.v, .pc]
  | .sneVxVy _ _ => [.pc]
  | .ldIAddr _ => [.i, .pc]
  | .jpV0Addr _ => [.pc]
  | .rndVxByte _ _ => [.v, .rng, .pc]
  | .drwVxVyNibble _ _ _ => [.fb, .v, .pc]
  | .skpVx _ => [.pc]
  | .sknpVx _ => [.pc]
  | .ldVxDT _ => [.v, .pc]
  | .ldVxK _ => [.engine]
  | .ldDTVx _ => [.dt, .pc]
  | .ldSTVx _ => [.st, .pc]
  | .addIVx _ => [.i, .pc]
  | .ldFVx _ => [.i, .pc]
  | .ldBVx _ => [.mem, .pc]
  | .ldMemVx _ => [.mem, .pc]
  | .ldVxMem _ => [.v, .pc]

/-- The general registers an instruction may write (10_state.md R21, R22). -/
def regsWritten : Instr → List Reg
  | .cls => []
  | .ret => []
  | .jpAddr _ => []
  | .callAddr _ => []
  | .seVxByte _ _ => []
  | .sneVxByte _ _ => []
  | .seVxVy _ _ => []
  | .ldVxByte x _ => [x]
  | .addVxByte x _ => [x]
  | .ldVxVy x _ => [x]
  | .orVxVy x _ => [x]
  | .andVxVy x _ => [x]
  | .xorVxVy x _ => [x]
  | .addVxVy x _ => [x, 0xF]
  | .subVxVy x _ => [x, 0xF]
  | .shrVxVy x _ => [x, 0xF]
  | .subnVxVy x _ => [x, 0xF]
  | .shlVxVy x _ => [x, 0xF]
  | .sneVxVy _ _ => []
  | .ldIAddr _ => []
  | .jpV0Addr _ => []
  | .rndVxByte x _ => [x]
  | .drwVxVyNibble _ _ _ => [0xF]
  | .skpVx _ => []
  | .sknpVx _ => []
  | .ldVxDT x => [x]
  | .ldVxK _ => []
  | .ldDTVx _ => []
  | .ldSTVx _ => []
  | .addIVx _ => []
  | .ldFVx _ => []
  | .ldBVx _ => []
  | .ldMemVx _ => []
  | .ldVxMem x => (List.finRange 16).take (x.val + 1)

/-- How many bytes from I up the instruction stores: FX33 three, FX55 X + 1, the others none
(43_index_memory.md R203, R204). -/
def bytesStored : Instr → Nat
  | .cls => 0
  | .ret => 0
  | .jpAddr _ => 0
  | .callAddr _ => 0
  | .seVxByte _ _ => 0
  | .sneVxByte _ _ => 0
  | .seVxVy _ _ => 0
  | .ldVxByte _ _ => 0
  | .addVxByte _ _ => 0
  | .ldVxVy _ _ => 0
  | .orVxVy _ _ => 0
  | .andVxVy _ _ => 0
  | .xorVxVy _ _ => 0
  | .addVxVy _ _ => 0
  | .subVxVy _ _ => 0
  | .shrVxVy _ _ => 0
  | .subnVxVy _ _ => 0
  | .shlVxVy _ _ => 0
  | .sneVxVy _ _ => 0
  | .ldIAddr _ => 0
  | .jpV0Addr _ => 0
  | .rndVxByte _ _ => 0
  | .drwVxVyNibble _ _ _ => 0
  | .skpVx _ => 0
  | .sknpVx _ => 0
  | .ldVxDT _ => 0
  | .ldVxK _ => 0
  | .ldDTVx _ => 0
  | .ldSTVx _ => 0
  | .addIVx _ => 0
  | .ldFVx _ => 0
  | .ldBVx _ => 3
  | .ldMemVx x => x.val + 1
  | .ldVxMem _ => 0

/-- The `n` addresses from `a` up. -/
def InRange (a n c : Nat) : Prop := a ≤ c ∧ c < a + n

/-- Digit k of a byte in decimal, hundreds first. -/
def decimalDigit (b : Byte) (k : Nat) : Nat := b.toNat / 10 ^ (2 - k) % 10

/-! ## Program flow -/

/-- The fetch at PC succeeds, and if `a` is one of its two addresses it reads `b` there, the byte at PC being the high
half of the word (20_memory.md R64). -/
def FetchesByte (s : State) (a b : Nat) : Prop :=
  ∃ w, s.fetch = .ok w ∧ (a = s.pc.toNat → w.toNat / 256 = b) ∧ (a = s.pc.toNat + 1 → w.toNat % 256 = b)

/-- The final PC of an instruction that raises no error, by the table of 40_dispatch.md R106, as an exact sum. The
return's slot is read before the pop; on an empty stack there is none. -/
def finalPc (i : Instr) (s : State) : Nat :=
  let skip (cond : Prop) [Decidable cond] : Nat := if cond then s.pc.toNat + 4 else s.pc.toNat + 2
  match i with
  | .ret => if h : 0 < s.sp.val then (s.stack[s.sp.val - 1]'(by omega)).toNat + 2 else 0
  | .jpAddr nnn => nnn.toNat
  | .callAddr nnn => nnn.toNat
  | .jpV0Addr nnn => nnn.toNat + (s.getV 0).toNat
  | .seVxByte x nn => skip (s.getV x = nn)
  | .sneVxByte x nn => skip (s.getV x ≠ nn)
  | .seVxVy x y => skip (s.getV x = s.getV y)
  | .sneVxVy x y => skip (s.getV x ≠ s.getV y)
  | .skpVx x => skip (s.keys.getLsbD (s.getV x).toNat = true)
  | .sknpVx x => skip (s.keys.getLsbD (s.getV x).toNat = false)
  | .ldVxK _ => s.pc.toNat
  | .cls => s.pc.toNat + 2
  | .ldVxByte _ _ => s.pc.toNat + 2
  | .addVxByte _ _ => s.pc.toNat + 2
  | .ldVxVy _ _ => s.pc.toNat + 2
  | .orVxVy _ _ => s.pc.toNat + 2
  | .andVxVy _ _ => s.pc.toNat + 2
  | .xorVxVy _ _ => s.pc.toNat + 2
  | .addVxVy _ _ => s.pc.toNat + 2
  | .subVxVy _ _ => s.pc.toNat + 2
  | .shrVxVy _ _ => s.pc.toNat + 2
  | .subnVxVy _ _ => s.pc.toNat + 2
  | .shlVxVy _ _ => s.pc.toNat + 2
  | .ldIAddr _ => s.pc.toNat + 2
  | .rndVxByte _ _ => s.pc.toNat + 2
  | .drwVxVyNibble _ _ _ => s.pc.toNat + 2
  | .ldVxDT _ => s.pc.toNat + 2
  | .ldDTVx _ => s.pc.toNat + 2
  | .ldSTVx _ => s.pc.toNat + 2
  | .addIVx _ => s.pc.toNat + 2
  | .ldFVx _ => s.pc.toNat + 2
  | .ldBVx _ => s.pc.toNat + 2
  | .ldMemVx _ => s.pc.toNat + 2
  | .ldVxMem _ => s.pc.toNat + 2

/-! ## Sprites -/

/-- Bit 7 − c of row r of the sprite lands on pixel (x, y), under `clip` (44_display.md R233). -/
def ClipCovers (xa ya : Nat) (rows : List Byte) (x : Fin 64) (y : Fin 32) : Prop :=
  ∃ r c, c < 8 ∧ xa + c = x.val ∧ ya + r = y.val ∧ (rows.getD r 0).getLsbD (7 - c) = true

/-- The same under `wrap`: target coordinates are reduced mod 64 and mod 32 (R236). -/
def WrapCovers (xa ya : Nat) (rows : List Byte) (x : Fin 64) (y : Fin 32) : Prop :=
  ∃ r c, c < 8 ∧ (xa + c) % 64 = x.val ∧ (ya + r) % 32 = y.val ∧ (rows.getD r 0).getLsbD (7 - c) = true

/-- A drawing that turns over exactly the covered pixels and reports whether one of them was on (R233, R234). -/
def XorsExactly (covers : Fin 64 → Fin 32 → Prop) (before after : FrameBuffer) (collision : Bool) : Prop :=
  (∀ x y, covers x y → after.pixel x y = !before.pixel x y) ∧
  (∀ x y, ¬ covers x y → after.pixel x y = before.pixel x y) ∧
  (collision = true ↔ ∃ x y, covers x y ∧ before.pixel x y = true)

/-! ## Illegal words -/

/-- The list of 30_encoding.md R88, by the word's nibbles and bytes. -/
def IllegalWord (w : Word) : Prop :=
  (w.toNat / 0x1000 = 0x0 ∧ w.toNat ≠ 0x00E0 ∧ w.toNat ≠ 0x00EE) ∨
  (w.toNat / 0x1000 = 0x5 ∧ w.toNat % 0x10 ≠ 0) ∨
  (w.toNat / 0x1000 = 0x8 ∧ w.toNat % 0x10 ∈ [0x8, 0x9, 0xA, 0xB, 0xC, 0xD, 0xF]) ∨
  (w.toNat / 0x1000 = 0x9 ∧ w.toNat % 0x10 ≠ 0) ∨
  (w.toNat / 0x1000 = 0xD ∧ w.toNat % 0x10 = 0) ∨
  (w.toNat / 0x1000 = 0xE ∧ w.toNat % 0x100 ∉ [0x9E, 0xA1]) ∨
  (w.toNat / 0x1000 = 0xF ∧
    w.toNat % 0x100 ∉ [0x07, 0x0A, 0x15, 0x18, 0x1E, 0x29, 0x33, 0x55, 0x65])

end Sys2Proof.Machine
end

