-- ==== Sys2Proof/Certificates/Slice0/Obligations.lean ====
section
/-! DEFINITION. The statements for the provers, each from the rules or sections of spec/ that its docstring names. -/

open Sys2Proof Sys2Proof.Machine

/-! ## Encoding -/

/-- Words written out from 30_encoding.md R86 and 95_test_vectors.md B.1: what they decode to. That 0x0000, 0x5121 and
0xD120 are refused rests on the spec's decisions D8 and D9 (log entry 10). -/
def Obligations.SpecWordsDecode : Prop :=
  decode 0x00E0 = .ok .cls ∧ decode 0x00EE = .ok .ret ∧ decode 0x1ABC = .ok (.jpAddr 0xABC) ∧
  decode 0x3A12 = .ok (.seVxByte 0xA 0x12) ∧ decode 0x8ABE = .ok (.shlVxVy 0xA 0xB) ∧
  decode 0xD125 = .ok (.drwVxVyNibble 1 2 5) ∧ decode 0xE29E = .ok (.skpVx 2) ∧
  decode 0xF355 = .ok (.ldMemVx 3) ∧ decode 0x0000 = .error .type0 ∧ decode 0x5121 = .error .type5 ∧
  decode 0xD120 = .error .drawHeightZero ∧ decode 0xFFFF = .error .typeF

/-- Decoding the word of a well-formed instruction gives the instruction back, every operand at every value
(R82, R86). -/
def Obligations.DecodeEncodeAgree : Prop :=
  ∀ i : Instr, i.wf = true → decode (encode i) = .ok i

/-- A word that decodes is the word of the instruction it decodes to, which is well-formed and matches its opcode-table
row exactly on the fixed bits (R86, R87). That 5XY0, 9XY0, 00E0 and 00EE match exactly is D8's choice, and that DXYN has
N ≠ 0 is D9's (log entry 10). -/
def Obligations.DecodedWordIsItsEncoding : Prop :=
  ∀ (w : Word) (i : Instr), decode w = .ok i → encode i = w ∧ i.wf = true ∧ w &&& rowMask i = rowMatch i

/-- The illegal words are exactly R88's list. At the dispatch of one, a Step in Running raises InvalidOpcode, and
nothing changes but the engine state (and the model's count of inputs drawn, log entry 3). R88 follows D8 and D9 for
5XYN, 9XYN, 0NNN and DXY0; the order of the checks is D28's, and that nothing else changes is D4's (log entry 10). -/
def Obligations.IllegalWordsRaiseInvalidOpcode : Prop :=
  (∀ w : Word, (∃ why, decode w = .error why) ↔ IllegalWord w) ∧
  ∀ s : State, s.engine = .running → s.pc.toNat % 2 = 0 → s.pc.toNat + 1 < 4096 →
    IllegalWord (s.mem.read s.pc.toNat ++ s.mem.read (s.pc.toNat + 1)) →
    step s = .next { s with engine := .halted .invalidOpcode, draws := s.draws + 1 }

/-! ## The Step -/

/-- A Step in Running whose bytes at PC decode to an instruction runs exactly that instruction, and adds nothing but
the draw of the Step's keypad sample (R100–R104, R107; log entry 3). -/
def Obligations.StepRunsDecodedInstruction : Prop :=
  ∀ (s : State) (i : Instr), s.engine = .running → s.pc.toNat % 2 = 0 → s.pc.toNat + 1 < 4096 →
    decode (s.mem.read s.pc.toNat ++ s.mem.read (s.pc.toNat + 1)) = .ok i →
    (∀ t, exec i s = .next t → step s = .next { t with draws := t.draws + 1 }) ∧
    ∃ t, exec i s = .next t

/-- The fetch check: a Step in Running at an odd PC, or at one whose second byte is no address, raises
MemoryOutOfBounds and changes only the engine state (D3, D4, D30, log entry 10). -/
def Obligations.BadFetchRaisesMemoryOutOfBounds : Prop :=
  ∀ s : State, s.engine = .running → (s.pc.toNat % 2 = 1 ∨ 4096 ≤ s.pc.toNat + 1) →
    step s = .next { s with engine := .halted .memoryOutOfBounds, draws := s.draws + 1 }

/-- Errors are precise: a Step from Running that ends in Halted(k) returned Err(k) and changed nothing but the engine
state (D4, log entry 10; the model's count of inputs drawn moves too, log entry 3). -/
def Obligations.FailedStepChangesOnlyEngine : Prop :=
  ∀ (s t : State) (k : ErrorKind), s.engine = .running → step s = .next t → t.engine = .halted k →
    t = { s with engine := .halted k, draws := s.draws + 1 } ∧ stepStatus s t = .err k

/-- In Halted a Step returns Halted and changes nothing, and only Reset or a Load leaves Halted (D5, log entry 10). -/
def Obligations.HaltedIsTerminalForStep : Prop :=
  ∀ (s : State) (k : ErrorKind), s.engine = .halted k →
    transact .step s = .next (.halted, s) ∧
    ∀ (tr : Transaction) (status : Status) (u : State), transact tr s = .next (status, u) →
      u.engine = .halted k ∨ tr = .reset ∨ ∃ p, tr = .load p

/-- A Step completes in every engine state but Unreset, where it is refused (R306, R109). -/
def Obligations.StepCompletesUnlessUnreset : Prop :=
  ∀ s : State,
    (s.engine = .unreset → step s = .refused .unreset) ∧
    (s.engine ≠ .unreset → ∃ t, step s = .next t)

/-- A Step in AwaitingKey(x): with no key in the sample nothing changes; otherwise V[x] gets the number of the lowest
key held, PC advances by 2 and the engine runs again (D14, log entry 10; the model's count of inputs drawn moves in
both, log entry 3). -/
def Obligations.AwaitingStepTakesLowestKey : Prop :=
  ∀ (s : State) (x : Reg), s.engine = .awaitingKey x →
    (s.keys = 0 → transact .step s = .next (.ok, { s with draws := s.draws + 1 })) ∧
    (s.keys ≠ 0 → ∃ (t : State) (k : Reg), transact .step s = .next (.ok, t) ∧
      s.keys.getLsbD k.val = true ∧ (∀ j : Reg, j < k → s.keys.getLsbD j.val = false) ∧
      (t.getV x).toNat = k.val ∧ OtherRegs [x] s t ∧ t.pc = s.pc + 2 ∧ t.engine = .running ∧
      SameBut [.v, .pc, .engine, .draws] s t)

/-- The transitions of E, with what each transaction returns; a Step from Running waits for a key exactly when it fetched
an FX0A (R31, R105; D5, D14, D16, D19, log entry 10). That Reset, Seed, TickTimers and the keypad port return Ok is the
model's choice (log entry 23). -/
def Obligations.EngineTransitions : Prop :=
  ∀ (tr : Transaction) (s u : State) (status : Status), transact tr s = .next (status, u) →
    match tr with
    | .reset => u.engine = .running ∧ status = .ok
    | .load p =>
      if 0x200 + 2 * p.length ≤ 0x1000 then u.engine = .running ∧ status = .ok
      else u.engine = .unreset ∧ status = .err .programTooLarge
    | .step =>
      match s.engine with
      | .running =>
        (∀ x, s.fetchInstr = .ok (.ldVxK x) → u.engine = .awaitingKey x ∧ status = .ok) ∧
        ((∀ x, s.fetchInstr ≠ .ok (.ldVxK x)) →
          (u.engine = .running ∧ status = .ok) ∨
          ∃ k, u.engine = .halted k ∧ k ≠ .programTooLarge ∧ status = .err k)
      | .halted k => u.engine = .halted k ∧ status = .halted
      | .awaitingKey x =>
        u.engine = (if s.keys = 0 then .awaitingKey x else .running) ∧ status = .ok
      | .unreset => False
    | .seed _ => u.engine = s.engine ∧ status = .ok
    | .tickTimers => u.engine = s.engine ∧ status = .ok
    | .keys _ => u.engine = s.engine ∧ status = .ok

/-! ## Control transfer -/

/-- `00EE`: pops the call site and goes 2 beyond it; on an empty stack it raises StackUnderflow. The popped slot keeps
its value (D22, log entry 18), an error changes nothing else (D4, log entry 10), and under the invariant the target is
even and at most 0x1000 (R130). -/
def Obligations.ReturnGoesBeyondCallSite : Prop :=
  ∀ s : State,
    (s.sp.val = 0 → Raises .ret s .stackUnderflow) ∧
    (∀ h : 0 < s.sp.val, Completes .ret s fun t =>
      t.sp.val = s.sp.val - 1 ∧ t.pc = s.stack[s.sp.val - 1]'(by omega) + 2 ∧ SameBut [.sp, .pc] s t ∧
      (s.Inv → s.engine ≠ .unreset → t.pc.toNat % 2 = 0 ∧ t.pc.toNat ≤ 0x1000))

/-- `2NNN`: saves the address of the call in the next free slot; on a full stack it raises StackOverflow, the check
coming first (R132; D4, log entry 10). -/
def Obligations.CallSavesCallSite : Prop :=
  ∀ (s : State) (nnn : Addr),
    (s.sp.val = 16 → Raises (.callAddr nnn) s .stackOverflow) ∧
    (∀ h : s.sp.val < 16, Completes (.callAddr nnn) s fun t =>
      t.stack[s.sp.val] = s.pc ∧ (∀ k : Fin 16, k.val ≠ s.sp.val → t.stack.get k = s.stack.get k) ∧
      t.sp.val = s.sp.val + 1 ∧ t.pc.toNat = nnn.toNat ∧ SameBut [.stack, .sp, .pc] s t)

/-- A call and the return it leads to: the return of the called code lands on the instruction after the call, with
SP and every live slot as before the call (R130, R132). The called code may itself call and return: the slots at or above
the SP that the call left may hold anything by then. -/
def Obligations.ReturnUndoesCall : Prop :=
  ∀ (s t : State) (nnn : Addr), s.sp.val < 16 → exec (.callAddr nnn) s = .next t →
    ∀ t' : State, t'.sp = t.sp → (∀ k : Fin 16, k.val < t.sp.val → t'.stack.get k = t.stack.get k) →
      Completes .ret t' fun u => u.pc = s.pc + 2 ∧ u.sp = s.sp ∧
        ∀ k : Fin 16, k.val < s.sp.val → u.stack.get k = s.stack.get k

/-- `1NNN` sets PC to NNN and `BNNN` to NNN + V0, an exact sum, whatever nibble 11:8 holds; nothing else changes
(R131, R133). -/
def Obligations.JumpsSetPc : Prop :=
  ∀ (s : State) (nnn : Addr),
    (Completes (.jpAddr nnn) s fun t => t.pc.toNat = nnn.toNat ∧ SameBut [.pc] s t) ∧
    (Completes (.jpV0Addr nnn) s fun t =>
      t.pc.toNat = nnn.toNat + (s.getV 0).toNat ∧ SameBut [.pc] s t)

/-- The register skips: PC advances by 4 when the condition holds and by 2 when it does not; nothing else changes
(R134–R138). What the words 5XY1–5XYF and 9XY1–9XYF do is IllegalWordsRaiseInvalidOpcode's to say. -/
def Obligations.RegisterSkips : Prop :=
  ∀ (s : State) (x y : Reg) (nn : Byte),
    (Completes (.seVxByte x nn) s fun t =>
      t.pc = s.pc + (if (s.getV x).toNat = nn.toNat then 4 else 2) ∧ SameBut [.pc] s t) ∧
    (Completes (.sneVxByte x nn) s fun t =>
      t.pc = s.pc + (if (s.getV x).toNat = nn.toNat then 2 else 4) ∧ SameBut [.pc] s t) ∧
    (Completes (.seVxVy x y) s fun t =>
      t.pc = s.pc + (if (s.getV x).toNat = (s.getV y).toNat then 4 else 2) ∧ SameBut [.pc] s t) ∧
    (Completes (.sneVxVy x y) s fun t =>
      t.pc = s.pc + (if (s.getV x).toNat = (s.getV y).toNat then 2 else 4) ∧ SameBut [.pc] s t)

/-! ## Register instructions -/

/-- `6XNN` and `8XY0`: V[X] gets NN, or V[Y]; no flag (R165, R167). -/
def Obligations.LoadsCopyTheirOperand : Prop :=
  ∀ (s : State) (x y : Reg) (nn : Byte),
    (Completes (.ldVxByte x nn) s fun t =>
      t.getV x = nn ∧ OtherRegs [x] s t ∧ t.pc = s.pc + 2 ∧ SameBut [.v, .pc] s t) ∧
    (Completes (.ldVxVy x y) s fun t =>
      t.getV x = s.getV y ∧ OtherRegs [x] s t ∧ t.pc = s.pc + 2 ∧ SameBut [.v, .pc] s t)

/-- `7XNN`: V[X] gets (V[X] + NN) mod 256; VF is not written unless X = F (R166). -/
def Obligations.AddImmediateWraps : Prop :=
  ∀ (s : State) (x : Reg) (nn : Byte), Completes (.addVxByte x nn) s fun t =>
    (t.getV x).toNat = ((s.getV x).toNat + nn.toNat) % 256 ∧ OtherRegs [x] s t ∧ t.pc = s.pc + 2 ∧
    SameBut [.v, .pc] s t

/-- `8XY1`, `8XY2`, `8XY3`: bit by bit OR, AND and XOR; VF is not written unless X = F (R168–R170). -/
def Obligations.LogicActsBitwise : Prop :=
  ∀ (s : State) (x y : Reg),
    (Completes (.orVxVy x y) s fun t =>
      (∀ k, (t.getV x).getLsbD k = ((s.getV x).getLsbD k || (s.getV y).getLsbD k)) ∧
      OtherRegs [x] s t ∧ t.pc = s.pc + 2 ∧ SameBut [.v, .pc] s t) ∧
    (Completes (.andVxVy x y) s fun t =>
      (∀ k, (t.getV x).getLsbD k = ((s.getV x).getLsbD k && (s.getV y).getLsbD k)) ∧
      OtherRegs [x] s t ∧ t.pc = s.pc + 2 ∧ SameBut [.v, .pc] s t) ∧
    (Completes (.xorVxVy x y) s fun t =>
      (∀ k, (t.getV x).getLsbD k = ((s.getV x).getLsbD k ^^ (s.getV y).getLsbD k)) ∧
      OtherRegs [x] s t ∧ t.pc = s.pc + 2 ∧ SameBut [.v, .pc] s t)

/-- `8XY4`: the sum mod 256 in V[X]; VF is 1 when the exact sum exceeds 255 and 0 otherwise. With X = F the sum stays
(D6, log entry 10). -/
def Obligations.AddSetsCarry : Prop :=
  ∀ (s : State) (x y : Reg), Completes (.addVxVy x y) s fun t =>
    (t.getV x).toNat = ((s.getV x).toNat + (s.getV y).toNat) % 256 ∧
    (x ≠ 0xF → (t.getV 0xF).toNat = if 255 < (s.getV x).toNat + (s.getV y).toNat then 1 else 0) ∧
    OtherRegs [x, 0xF] s t ∧ t.pc = s.pc + 2 ∧ SameBut [.v, .pc] s t

/-- `8XY5` and `8XY7`: the difference mod 256 in V[X]; VF is 1 exactly when the minuend is strictly greater. With X = F
the difference stays (D6, log entry 10). -/
def Obligations.SubtractionsSetStrictGreater : Prop :=
  ∀ (s : State) (x y : Reg),
    (Completes (.subVxVy x y) s fun t =>
      (t.getV x).toNat = ((s.getV x).toNat + 256 - (s.getV y).toNat) % 256 ∧
      (x ≠ 0xF → (t.getV 0xF).toNat = if (s.getV y).toNat < (s.getV x).toNat then 1 else 0) ∧
      OtherRegs [x, 0xF] s t ∧ t.pc = s.pc + 2 ∧ SameBut [.v, .pc] s t) ∧
    (Completes (.subnVxVy x y) s fun t =>
      (t.getV x).toNat = ((s.getV y).toNat + 256 - (s.getV x).toNat) % 256 ∧
      (x ≠ 0xF → (t.getV 0xF).toNat = if (s.getV x).toNat < (s.getV y).toNat then 1 else 0) ∧
      OtherRegs [x, 0xF] s t ∧ t.pc = s.pc + 2 ∧ SameBut [.v, .pc] s t)

/-- `8XY6` and `8XYE`: V[X] shifted by one place, whatever Y; VF is the bit shifted out. The source register is D7's
choice (log entry 8); with X = F the shifted value stays (D6, log entry 10). -/
def Obligations.ShiftsPutOutTheEndBit : Prop :=
  ∀ (s : State) (x y : Reg),
    (Completes (.shrVxVy x y) s fun t =>
      (t.getV x).toNat = (s.getV x).toNat / 2 ∧
      (x ≠ 0xF → (t.getV 0xF).toNat = (s.getV x).toNat % 2) ∧
      OtherRegs [x, 0xF] s t ∧ t.pc = s.pc + 2 ∧ SameBut [.v, .pc] s t) ∧
    (Completes (.shlVxVy x y) s fun t =>
      (t.getV x).toNat = (s.getV x).toNat * 2 % 256 ∧
      (x ≠ 0xF → (t.getV 0xF).toNat = (s.getV x).toNat / 128) ∧
      OtherRegs [x, 0xF] s t ∧ t.pc = s.pc + 2 ∧ SameBut [.v, .pc] s t)

/-- `CXNN`: one draw of the OPEN generator, its byte masked by NN, and the generator advanced, for every generator
(D15; log entry 4). -/
def Obligations.RandomMakesOneDraw : Prop :=
  ∀ (s : State) (x : Reg) (nn : Byte), Completes (.rndVxByte x nn) s fun t =>
    (∀ k, (t.getV x).getLsbD k = ((Config.rngNext s.rng).1.getLsbD k && nn.getLsbD k)) ∧
    t.rng = (Config.rngNext s.rng).2 ∧ OtherRegs [x] s t ∧ t.pc = s.pc + 2 ∧
    SameBut [.v, .rng, .pc] s t

/-! ## Index and memory instructions -/

/-- `ANNN`, `FX1E`, `FX29`: I gets NNN, (I + V[X]) mod 2^16, or 5·V[X] unmasked; no flag (R200–R202; the wrap at 16 bits
is D10's choice, log entry 10). -/
def Obligations.IndexWrites : Prop :=
  ∀ (s : State) (x : Reg) (nnn : Addr),
    (Completes (.ldIAddr nnn) s fun t =>
      t.i.toNat = nnn.toNat ∧ t.pc = s.pc + 2 ∧ SameBut [.i, .pc] s t) ∧
    (Completes (.addIVx x) s fun t =>
      t.i.toNat = (s.i.toNat + (s.getV x).toNat) % 65536 ∧ t.pc = s.pc + 2 ∧ SameBut [.i, .pc] s t) ∧
    (Completes (.ldFVx x) s fun t =>
      t.i.toNat = 5 * (s.getV x).toNat ∧ t.pc = s.pc + 2 ∧ SameBut [.i, .pc] s t)

/-- `FX33`: the hundreds, tens and units of V[X] at I, I+1, I+2 and no other byte; beyond memory it raises
MemoryOutOfBounds and writes nothing (R203; D4, log entry 10). -/
def Obligations.BcdStoresDigits : Prop :=
  ∀ (s : State) (x : Reg),
    (s.i.toNat + 3 ≤ 4096 → Completes (.ldBVx x) s fun t =>
      (t.mem.read s.i.toNat).toNat = (s.getV x).toNat / 100 ∧
      (t.mem.read (s.i.toNat + 1)).toNat = (s.getV x).toNat / 10 % 10 ∧
      (t.mem.read (s.i.toNat + 2)).toNat = (s.getV x).toNat % 10 ∧
      (∀ a, ¬ InRange s.i.toNat 3 a → t.mem.read a = s.mem.read a) ∧
      t.pc = s.pc + 2 ∧ SameBut [.mem, .pc] s t) ∧
    (4096 < s.i.toNat + 3 → Raises (.ldBVx x) s .memoryOutOfBounds)

/-- `FX55`: V0..VX at I..I+X and no other byte, I unchanged; beyond memory it raises MemoryOutOfBounds and writes
nothing (R204; D4, log entry 10). -/
def Obligations.StoreRegisters : Prop :=
  ∀ (s : State) (x : Reg),
    (s.i.toNat + x.val + 1 ≤ 4096 → Completes (.ldMemVx x) s fun t =>
      (∀ r : Reg, r ≤ x → t.mem.read (s.i.toNat + r.val) = s.getV r) ∧
      (∀ a, ¬ InRange s.i.toNat (x.val + 1) a → t.mem.read a = s.mem.read a) ∧
      t.pc = s.pc + 2 ∧ SameBut [.mem, .pc] s t) ∧
    (4096 < s.i.toNat + x.val + 1 → Raises (.ldMemVx x) s .memoryOutOfBounds)

/-- `FX65`: V0..VX from I..I+X, the registers above X and I unchanged; beyond memory it raises MemoryOutOfBounds and
changes nothing but the engine state (R205; D4, log entry 10). -/
def Obligations.LoadRegisters : Prop :=
  ∀ (s : State) (x : Reg),
    (s.i.toNat + x.val + 1 ≤ 4096 → Completes (.ldVxMem x) s fun t =>
      (∀ r : Reg, r ≤ x → t.getV r = s.mem.read (s.i.toNat + r.val)) ∧
      (∀ r : Reg, x < r → t.getV r = s.getV r) ∧
      t.pc = s.pc + 2 ∧ SameBut [.v, .pc] s t) ∧
    (4096 < s.i.toNat + x.val + 1 → Raises (.ldVxMem x) s .memoryOutOfBounds)

/-- The round trip of 95_test_vectors.md W9: whatever happens to the registers and PC after a store, as long as I and
memory stay, the load gives V0..VX the stored values. -/
def Obligations.LoadRestoresStoredRegisters : Prop :=
  ∀ (s t t' : State) (x : Reg), s.i.toNat + x.val + 1 ≤ 4096 → exec (.ldMemVx x) s = .next t →
    t'.i = t.i → t'.mem = t.mem →
    Completes (.ldVxMem x) t' fun u => ∀ r : Reg, r ≤ x → u.getV r = s.getV r

/-- A store into the code stream is fetched: each byte that `FX55` or `FX33` stored, and that no later write changed,
is the byte that a fetch reads at its address, whether it is the first of the fetched word or the second, and whatever
else changed in between (R70; D25, log entry 10). -/
def Obligations.StoreIsSeenByFetch : Prop :=
  ∀ (s t t' : State) (x : Reg), t'.pc.toNat % 2 = 0 → t'.pc.toNat + 1 < 4096 →
    (s.i.toNat + x.val + 1 ≤ 4096 → exec (.ldMemVx x) s = .next t →
      ∀ r : Reg, r ≤ x → t'.mem.read (s.i.toNat + r.val) = t.mem.read (s.i.toNat + r.val) →
        FetchesByte t' (s.i.toNat + r.val) (s.getV r).toNat) ∧
    (s.i.toNat + 3 ≤ 4096 → exec (.ldBVx x) s = .next t →
      ∀ k, k < 3 → t'.mem.read (s.i.toNat + k) = t.mem.read (s.i.toNat + k) →
        FetchesByte t' (s.i.toNat + k) (decimalDigit (s.getV x) k))

/-! ## Display -/

/-- `00E0`: every pixel off, nothing else but PC (R232, R240). -/
def Obligations.ClearTurnsEveryPixelOff : Prop :=
  ∀ s : State, Completes .cls s fun t =>
    (∀ x y, t.fb.pixel x y = false) ∧ t.pc = s.pc + 2 ∧ SameBut [.fb, .pc] s t

/-- `Draw` under both edge policies, for a sprite of up to 15 rows: exactly the pixels a sprite bit reaches are turned
over, and the collision says whether one of them was on; the order of the bits does not matter (R233–R238; `wrap` is
D11's, log entry 7). -/
def Obligations.DrawXorsCoveredPixels : Prop :=
  ∀ (fb : FrameBuffer) (xa ya : Byte) (rows : List Byte), rows.length ≤ 15 →
    XorsExactly (ClipCovers xa.toNat ya.toNat rows) fb
      (fb.draw .clip xa ya rows).1 (fb.draw .clip xa ya rows).2 ∧
    XorsExactly (WrapCovers xa.toNat ya.toNat rows) fb
      (fb.draw .wrap xa ya rows).1 (fb.draw .wrap xa ya rows).2

/-- `DXYN`: the sprite's N rows at I are XORed at (V[X], V[Y]), both read before VF is written, clipped at the edges;
VF is 1 exactly when a lit pixel was turned off and 0 otherwise; beyond memory it raises MemoryOutOfBounds, wherever
the sprite would fall, and draws nothing (R241, R233, R234; the clip policy is D11's value, log entry 7; the check
before the draw is D12's, log entry 10). It takes N = 0 too, which no word decodes to and to which the model gives the
drawing of an empty sprite (log entry 13). -/
def Obligations.DrawSprite : Prop :=
  ∀ (s : State) (x y : Reg) (n : Nibble),
    (s.i.toNat + n.toNat ≤ 4096 → Completes (.drwVxVyNibble x y n) s fun t =>
      (∃ collision : Bool,
        XorsExactly (fun px py => ∃ r c, r < n.toNat ∧ c < 8 ∧ (s.getV x).toNat + c = px.val ∧
            (s.getV y).toNat + r = py.val ∧ (s.mem.read (s.i.toNat + r)).getLsbD (7 - c) = true)
          s.fb t.fb collision ∧
        (t.getV 0xF).toNat = if collision then 1 else 0) ∧
      OtherRegs [0xF] s t ∧ t.pc = s.pc + 2 ∧ SameBut [.fb, .v, .pc] s t) ∧
    (4096 < s.i.toNat + n.toNat → Raises (.drwVxVyNibble x y n) s .memoryOutOfBounds)

/-- Drawing the same sprite twice at one anchor restores the frame buffer; and if the first draw collided with
nothing, the second collides exactly when the first lit some pixel (the source's draw test, R241 and W7, says so of clip;
the policy wrap is D11's, log entry 7). -/
def Obligations.DrawTwiceRestores : Prop :=
  ∀ (fb : FrameBuffer) (policy : EdgePolicy) (xa ya : Byte) (rows : List Byte), rows.length ≤ 15 →
    ((fb.draw policy xa ya rows).1.draw policy xa ya rows).1 = fb ∧
    ((fb.draw policy xa ya rows).2 = false →
      (((fb.draw policy xa ya rows).1.draw policy xa ya rows).2 = true ↔ (fb.draw policy xa ya rows).1 ≠ fb))

/-! ## Timers and keypad -/

/-- `FX07`, `FX15`, `FX18`: V[X] gets DT; DT or ST gets V[X] (R260–R262). -/
def Obligations.TimerInstructions : Prop :=
  ∀ (s : State) (x : Reg),
    (Completes (.ldVxDT x) s fun t =>
      t.getV x = s.dt ∧ OtherRegs [x] s t ∧ t.pc = s.pc + 2 ∧ SameBut [.v, .pc] s t) ∧
    (Completes (.ldDTVx x) s fun t => t.dt = s.getV x ∧ t.pc = s.pc + 2 ∧ SameBut [.dt, .pc] s t) ∧
    (Completes (.ldSTVx x) s fun t => t.st = s.getV x ∧ t.pc = s.pc + 2 ∧ SameBut [.st, .pc] s t)

/-- `EX9E` and `EXA1`: a skip on the bit of key V[X] in this Step's sample; V[X] ≥ 16 raises InvalidOpcode. The
semantics are the spec's from general knowledge (D13; log entries 9 and 11); that an error changes nothing else is D4's
(log entry 10). -/
def Obligations.KeySkips : Prop :=
  ∀ (s : State) (x : Reg),
    ((s.getV x).toNat < 16 →
      (Completes (.skpVx x) s fun t =>
        t.pc = s.pc + (if s.keys.getLsbD (s.getV x).toNat = true then 4 else 2) ∧ SameBut [.pc] s t) ∧
      (Completes (.sknpVx x) s fun t =>
        t.pc = s.pc + (if s.keys.getLsbD (s.getV x).toNat = true then 2 else 4) ∧ SameBut [.pc] s t)) ∧
    (16 ≤ (s.getV x).toNat →
      Raises (.skpVx x) s .invalidOpcode ∧ Raises (.sknpVx x) s .invalidOpcode)

/-- `FX0A`: the engine waits for a key into V[X], and nothing else changes, PC included (D14, log entry 10). -/
def Obligations.KeyWaitEntry : Prop :=
  ∀ (s : State) (x : Reg), Completes (.ldVxK x) s fun t =>
    t.engine = .awaitingKey x ∧ SameBut [.engine] s t

/-! ## Frames over all instructions -/

/-- What each instruction may change: the parts listed for it (R21–R32, R40, R41), or, when it raises an error, the
engine state alone. That 00EE leaves every slot is D22's (log entry 18), that FX0A leaves PC is D14's and that an error
changes the engine state alone is D4's (log entry 10). -/
def Obligations.InstructionsChangeOnlyTheirParts : Prop :=
  ∀ (i : Instr) (s t : State), exec i s = .next t →
    SameBut (partsChanged i) s t ∨ ∃ k, t = { s with engine := .halted k }

/-- The general registers are written only as R22 lists: by the instructions that name them, by the Step that leaves
AwaitingKey, and by Reset, which writes them all to 0. -/
def Obligations.RegistersWrittenOnlyAsListed : Prop :=
  (∀ (i : Instr) (s t : State), exec i s = .next t → OtherRegs (regsWritten i) s t) ∧
  (∀ (s t : State) (x : Reg), s.engine = .awaitingKey x → step s = .next t → OtherRegs [x] s t) ∧
  (∀ (s : State) (r : Reg), s.hostReset.getV r = 0)

/-- Every byte of memory outside the bytes an instruction stores reads as before; only FX33 and FX55 store, from the
address in I up (R60, R67, R203, R204). That an instruction which raises an error stores nothing is D4's (log entry
10). -/
def Obligations.MemoryFrame : Prop :=
  ∀ (i : Instr) (s t : State), exec i s = .next t →
    ∀ a, ¬ InRange s.indexAddr (bytesStored i) a → t.mem.read a = s.mem.read a

/-- The final PC of every instruction, fetched in a state that meets the invariant: an error leaves PC, and otherwise
it is the exact sum that the table of R106 gives (D3, D4, D13, D14, log entry 10). -/
def Obligations.PcFinalisation : Prop :=
  ∀ (i : Instr) (s t : State), s.Inv → s.engine = .running → s.pc.toNat % 2 = 0 → s.pc.toNat + 1 < 4096 →
    exec i s = .next t →
    (∀ k, t.engine = .halted k → t.pc = s.pc) ∧
    ((∀ k, t.engine ≠ .halted k) → t.pc.toNat = finalPc i s)

/-- What an instruction does not read does not matter to it: no instruction but CXNN draws (R40), none reads ST (R29),
and the frame buffer is seen only through the collisions of DXYN (R242). Replacing the unread part before the
instruction gives the same outcome with that part replaced; FX18 and 00E0, which write ST or the whole frame buffer, give
the very same state; and DXYN gives one that agrees on everything but the frame buffer and VF. -/
def Obligations.UnreadStateDoesNotMatter : Prop :=
  ∀ (i : Instr) (s t : State), exec i s = .next t →
    (∀ r, (∀ x nn, i ≠ .rndVxByte x nn) → exec i { s with rng := r } = .next { t with rng := r }) ∧
    (∀ b, (∀ x, i ≠ .ldSTVx x) → exec i { s with st := b } = .next { t with st := b }) ∧
    (∀ b x, i = .ldSTVx x → exec i { s with st := b } = .next t) ∧
    (∀ f, i ≠ .cls → (∀ x y n, i ≠ .drwVxVyNibble x y n) →
      exec i { s with fb := f } = .next { t with fb := f }) ∧
    (∀ f, i = .cls → exec i { s with fb := f } = .next t) ∧
    (∀ f x y n, i = .drwVxVyNibble x y n →
      Completes i { s with fb := f } fun u => SameBut [.fb, .v] t u ∧ OtherRegs [0xF] t u)

/-! ## Invariants -/

/-- The state after Reset meets the invariant. -/
def Obligations.ResetMeetsInv : Prop := State.reset.Inv ∧ ∀ s : State, s.hostReset.Inv

/-- Every Step keeps the invariant: memory canonical, PC at most 0x10FE (R26), saved return addresses even and
fetchable (R130), no halt by ProgramTooLarge (R300), PC at the FX0A while waiting (R265). -/
def Obligations.StepKeepsInv : Prop :=
  ∀ s t : State, s.Inv → step s = .next t → t.Inv

/-- Every transaction of the host keeps it too, a failed Load among them. -/
def Obligations.TransactionsKeepInv : Prop :=
  ∀ (tr : Transaction) (s t : State) (status : Status), s.Inv → transact tr s = .next (status, t) → t.Inv

/-- Two canonical memories that read alike are the same data, so that comparing states compares memories. -/
def Obligations.CanonicalMemoriesAgree : Prop :=
  ∀ m m' : Memory, m.wf = true → m'.wf = true → (∀ a, a < 4096 → m.read a = m'.read a) → m = m'

/-! ## Host transactions -/

/-- The values Reset leaves (R45, R340), from any state; glyph F's bytes are the source's, the other glyphs the
parameter FONT (log entry 6); the seed stays (D15), and an unseeded generator starts from some entropy. -/
def Obligations.ResetValues : Prop :=
  ∀ s : State,
    (∀ r, s.hostReset.getV r = 0) ∧ s.hostReset.i = 0 ∧ s.hostReset.pc = 0x200 ∧ s.hostReset.sp = 0 ∧
    (∀ k, s.hostReset.stack.get k = 0) ∧ s.hostReset.dt = 0 ∧ s.hostReset.st = 0 ∧
    (∀ a, a < 0x50 → s.hostReset.mem.read a = Config.font.getD a 0) ∧
    s.hostReset.mem.readBytes 0x04B 5 = [0xF0, 0x80, 0xF0, 0x80, 0x80] ∧
    (∀ a, 0x50 ≤ a → a < 0x1000 → s.hostReset.mem.read a = 0) ∧
    (∀ x y, s.hostReset.fb.pixel x y = false) ∧ s.hostReset.engine = .running ∧
    s.hostReset.seedCfg = s.seedCfg ∧
    (∀ seed, s.seedCfg = some seed → s.hostReset.rng = Config.rngInit seed) ∧
    (s.seedCfg = none → ∃ entropy, s.hostReset.rng = Config.rngInit entropy)

/-- `Load` of a program that fits: PC at its first byte, each word's two bytes big-endian from 0x200 up, every other
byte and every other part as a Reset leaves it (R345, W1). -/
def Obligations.LoadPlacesProgram : Prop :=
  ∀ (s : State) (p : List Word), 0x200 + 2 * p.length ≤ 0x1000 →
    ∃ t, transact (.load p) s = .next (.ok, t) ∧
      (∀ j w, p[j]? = some w →
        (t.mem.read (0x200 + 2 * j)).toNat = w.toNat / 256 ∧
        (t.mem.read (0x200 + 2 * j + 1)).toNat = w.toNat % 256) ∧
      (∀ a, ¬ InRange 0x200 (2 * p.length) a → t.mem.read a = s.hostReset.mem.read a) ∧
      SameBut [.mem] s.hostReset t

/-- A program that does not fit: `Load` fails with ProgramTooLarge, and every Step is refused until a Reset or a
successful Load, whatever seeds, ticks, keypad inputs, failing loads and refused Steps come between (R346, R361; D16, log
entry 17). -/
def Obligations.FailedLoadNeedsReset : Prop :=
  ∀ (s : State) (p : List Word), 0x1000 < 0x200 + 2 * p.length →
    ∃ t, transact (.load p) s = .next (.err .programTooLarge, t) ∧
      ∀ (ts : List Transaction),
        (∀ tr ∈ ts, tr ≠ .reset ∧ ∀ q, tr = .load q → 0x1000 < 0x200 + 2 * q.length) →
        runTransactions (ts ++ [.step]) t = .refused .unreset

/-- `TickTimers()`: each nonzero timer goes down by one and nothing else changes, in every engine state
(R330; D21 and D31, log entry 10). The result Ok is the model's choice (log entry 23). -/
def Obligations.TickDecrementsNonzeroTimers : Prop :=
  ∀ s : State, ∃ t, transact .tickTimers s = .next (.ok, t) ∧
    t.dt.toNat = s.dt.toNat - 1 ∧ t.st.toNat = s.st.toNat - 1 ∧ SameBut [.dt, .st] s t

/-- `Seed(value)` sets the seed and the generator and nothing else, in every engine state, and a later Reset or
successful Load starts the generator from that seed again (R343; D15, log entry 10). The result Ok is the model's choice
(log entry 23). -/
def Obligations.SeedIsSticky : Prop :=
  ∀ (s : State) (seed : Seed), ∃ t, transact (.seed seed) s = .next (.ok, t) ∧
    t.seedCfg = some seed ∧ t.rng = Config.rngInit seed ∧ SameBut [.rng, .seedCfg] s t ∧
    ∀ (u : State), u.seedCfg = some seed → u.hostReset.rng = Config.rngInit seed ∧
      ∀ p, 0x200 + 2 * p.length ≤ 0x1000 → (u.hostLoad p).rng = Config.rngInit seed

/-- Two engines seeded alike and fed the same program and the same inputs have identical trajectories, whatever state
they were in before (R341, R343, W10): the same results, state for state. The inputs are the model's keypad port and
draw count (log entries 2 and 3), so a statement for equal inputs is one for engines equal in both; the results of the
transactions other than Step and Load are the model's choice (log entry 23). -/
def Obligations.SeededRunsAreIdentical : Prop :=
  ∀ (s s' : State) (seed : Seed) (p : List Word) (ts : List Transaction),
    0x200 + 2 * p.length ≤ 0x1000 → s.draws = s'.draws → s.keyPort = s'.keyPort →
    runTransactions (.seed seed :: .load p :: ts) s = runTransactions (.seed seed :: .load p :: ts) s'

/-- The observers give the current value inside their ranges and refuse outside them (R50, R239; D26, log entry 22). -/
def Obligations.ObserversCheckTheirRanges : Prop :=
  ∀ (s : State) (a b : Nat),
    (∀ (ha : a < 64) (hb : b < 32), s.pixelAt a b = .ok (s.fb.pixel ⟨a, ha⟩ ⟨b, hb⟩)) ∧
    (¬ (a < 64 ∧ b < 32) → s.pixelAt a b = .error .observerOutOfRange) ∧
    (a < 4096 → s.memoryAt a = .ok (s.mem.read a)) ∧ (4096 ≤ a → s.memoryAt a = .error .observerOutOfRange) ∧
    (∀ h : a < 16, s.registerAt a = .ok (s.getV ⟨a, h⟩)) ∧ (16 ≤ a → s.registerAt a = .error .observerOutOfRange)
end

