-- ==== Sys2Proof/Laws/Decode.lean ====
section
/-! SUPPORT. Each format's bits, its fields and its fixed bits (30_encoding.md R81, R82). -/

namespace Sys2Proof

/-! ## The bits of a word built from its format -/

/-- Format XY and XYN, bit by bit: N, Y, X, Type. -/
theorem getLsbD_formatXY (type : Nibble) (x y : Reg) (n : Nibble) (i : Nat) :
    (formatXY type x y n).getLsbD i =
      if i < 4 then n.getLsbD i else if i < 8 then (regField y).getLsbD (i - 4)
      else if i < 12 then (regField x).getLsbD (i - 8) else type.getLsbD (i - 12) := by
  change BitVec.getLsbD (type ++ regField x ++ regField y ++ n : BitVec (4 + 4 + 4 + 4)) i = _
  simp only [BitVec.getLsbD_append, Nat.sub_sub]
  split_ifs <;> first | rfl | omega

/-- Formats XK and XS, bit by bit: NN, X, Type. -/
theorem getLsbD_formatXK (type : Nibble) (x : Reg) (nn : Byte) (i : Nat) :
    (formatXK type x nn).getLsbD i =
      if i < 8 then nn.getLsbD i else if i < 12 then (regField x).getLsbD (i - 8) else type.getLsbD (i - 12) := by
  change BitVec.getLsbD (type ++ regField x ++ nn : BitVec (4 + 4 + 8)) i = _
  simp only [BitVec.getLsbD_append, Nat.sub_sub]
  split_ifs <;> first | rfl | omega

/-- Format A, bit by bit: NNN, Type. -/
theorem getLsbD_formatA (type : Nibble) (nnn : Addr) (i : Nat) :
    (formatA type nnn).getLsbD i = if i < 12 then nnn.getLsbD i else type.getLsbD (i - 12) := by
  change BitVec.getLsbD (type ++ nnn : BitVec (4 + 12)) i = _
  simp only [BitVec.getLsbD_append]

/-- A big-endian word, bit by bit: the second byte, the first. -/
theorem getLsbD_bigEndian (hi lo : Byte) (i : Nat) :
    (bigEndian hi lo).getLsbD i = if i < 8 then lo.getLsbD i else hi.getLsbD (i - 8) := by
  change BitVec.getLsbD (hi ++ lo : BitVec (8 + 8)) i = _
  simp only [BitVec.getLsbD_append]

/-! ## Its fields -/

/-- Format XY and XYN give Type, X, Y and N back. -/
theorem fields_formatXY (type : Nibble) (x y : Reg) (n : Nibble) :
    (fields (formatXY type x y n)).type = type ∧ (fields (formatXY type x y n)).x = regField x ∧
      (fields (formatXY type x y n)).y = regField y ∧ (fields (formatXY type x y n)).n = n := by
  refine ⟨?_, ?_, ?_, ?_⟩ <;>
  · apply BitVec.eq_of_getLsbD_eq
    intro i hi
    simp only [fields, BitVec.getLsbD_extractLsb', getLsbD_formatXY]
    interval_cases i <;> simp

/-- Formats XK and XS give Type, X and NN back. -/
theorem fields_formatXK (type : Nibble) (x : Reg) (nn : Byte) :
    (fields (formatXK type x nn)).type = type ∧ (fields (formatXK type x nn)).x = regField x ∧
      (fields (formatXK type x nn)).nn = nn := by
  refine ⟨?_, ?_, ?_⟩ <;>
  · apply BitVec.eq_of_getLsbD_eq
    intro i hi
    simp only [fields, BitVec.getLsbD_extractLsb', getLsbD_formatXK]
    interval_cases i <;> simp

/-- Format A gives Type and NNN back. -/
theorem fields_formatA (type : Nibble) (nnn : Addr) :
    (fields (formatA type nnn)).type = type ∧ (fields (formatA type nnn)).nnn = nnn := by
  refine ⟨?_, ?_⟩ <;>
  · apply BitVec.eq_of_getLsbD_eq
    intro i hi
    simp only [fields, BitVec.getLsbD_extractLsb', getLsbD_formatA]
    interval_cases i <;> simp

/-- A register number is read from its field. -/
@[simp] theorem toFin_regField (x : Reg) : (regField x).toFin = x := rfl

/-! ## Its fixed bits -/

/-- A mask over the Type nibble keeps Type. -/
theorem formatA_type (type : Nibble) (nnn : Addr) : formatA type nnn &&& 0xF000 = formatA type 0 := by
  apply BitVec.eq_of_getLsbD_eq
  intro i hi
  simp only [BitVec.getLsbD_and, getLsbD_formatA]
  interval_cases i <;> simp

/-- A mask over the Type nibble keeps Type. -/
theorem formatXK_type (type : Nibble) (x : Reg) (nn : Byte) :
    formatXK type x nn &&& 0xF000 = formatXK type 0 0 := by
  apply BitVec.eq_of_getLsbD_eq
  intro i hi
  simp only [BitVec.getLsbD_and, getLsbD_formatXK]
  interval_cases i <;> simp [regField]

/-- A mask over Type and NN keeps both. -/
theorem formatXK_sub (type : Nibble) (x : Reg) (nn : Byte) :
    formatXK type x nn &&& 0xF0FF = formatXK type 0 nn := by
  apply BitVec.eq_of_getLsbD_eq
  intro i hi
  simp only [BitVec.getLsbD_and, getLsbD_formatXK]
  interval_cases i <;> simp [regField]

/-- A mask over the Type nibble keeps Type. -/
theorem formatXY_type (type : Nibble) (x y : Reg) (n : Nibble) :
    formatXY type x y n &&& 0xF000 = formatXY type 0 0 0 := by
  apply BitVec.eq_of_getLsbD_eq
  intro i hi
  simp only [BitVec.getLsbD_and, getLsbD_formatXY]
  interval_cases i <;> simp [regField]

/-- A mask over Type and N keeps both. -/
theorem formatXY_sub (type : Nibble) (x y : Reg) (n : Nibble) :
    formatXY type x y n &&& 0xF00F = formatXY type 0 0 n := by
  apply BitVec.eq_of_getLsbD_eq
  intro i hi
  simp only [BitVec.getLsbD_and, getLsbD_formatXY]
  interval_cases i <;> simp [regField]

/-! ## Bytes of a word -/

/-- A word is its two bytes, the high one first. -/
theorem bigEndian_bytes (w : Word) : bigEndian (highByte w) (lowByte w) = w := by
  apply BitVec.eq_of_getLsbD_eq
  intro i hi
  simp only [getLsbD_bigEndian, highByte, lowByte, BitVec.getLsbD_extractLsb']
  interval_cases i <;> simp

end Sys2Proof
end

