-- ==== Sys2Proof/Laws/Memory.lean ====
section
/-! SUPPORT. The laws of memory: a read after a write, and the canonical form that every operation keeps. -/

namespace Sys2Proof.Machine

/-! ## Reads after writes -/

theorem Memory.read_put (m : Memory) (a : Nat) (b : Byte) (c : Nat) :
    (Memory.put m a b).read c = if c = a then b else m.read c := by
  induction m with
  | nil => simp [Memory.put, Memory.read, eq_comm]
  | cons cell m ih =>
    obtain ⟨d, e⟩ := cell
    simp only [Memory.put]
    split
    · simp [Memory.read, eq_comm]
    · split
      · next h => subst h; simp only [Memory.read, eq_comm]; split <;> rfl
      · next h =>
        simp only [Memory.read, ih]
        by_cases hd : d = c
        · simp [hd]; intro hc; omega
        · simp [hd]

theorem Memory.read_drop (m : Memory) (a c : Nat) :
    (Memory.drop m a).read c = if c = a then Memory.initial a else m.read c := by
  induction m with
  | nil => simp [Memory.drop, Memory.read]; intro h; rw [h]
  | cons cell m ih =>
    obtain ⟨d, e⟩ := cell
    simp only [Memory.drop] at ih
    by_cases hd : d = a
    · subst hd
      simp only [Memory.drop, bne_self_eq_false, Bool.false_eq_true, not_false_eq_true, List.filter_cons_of_neg, ih,
        Memory.read, eq_comm (a := d)]
      split <;> simp_all
    · by_cases hc : d = c
      · subst hc; simp [Memory.drop, Memory.read, hd]
      · simp [Memory.drop, Memory.read, hd, hc, ih]

/-- A read after a write: the byte written at its address, every other byte as before (R68). -/
theorem Memory.read_write (m : Memory) (a : Nat) (b : Byte) (c : Nat) :
    (m.write a b).read c = if c = a then b else m.read c := by
  unfold Memory.write
  split
  · next h => rw [Memory.read_drop, h]
  · exact Memory.read_put m a b c

/-- A read after a bulk write: the byte written, inside its range; as before, outside. -/
theorem Memory.read_writeBytes (bs : List Byte) (m : Memory) (a c : Nat) :
    (m.writeBytes a bs).read c = if a ≤ c ∧ c < a + bs.length then bs.getD (c - a) 0 else m.read c := by
  induction bs generalizing m a with
  | nil => simp [Memory.writeBytes]
  | cons b bs ih =>
    simp only [Memory.writeBytes, ih, Memory.read_write, List.length_cons]
    by_cases h : c = a
    · subst h; simp
    · by_cases h' : a + 1 ≤ c ∧ c < a + 1 + bs.length
      · have : c - a = c - (a + 1) + 1 := by omega
        rw [if_pos h', if_pos (by omega), this, List.getD_cons_succ]
      · rw [if_neg h', if_neg h, if_neg (by omega)]

@[simp] theorem Memory.readBytes_length (m : Memory) (a n : Nat) : (m.readBytes a n).length = n := by
  simp [Memory.readBytes]

/-- The k-th byte of a bulk read. -/
theorem Memory.readBytes_getD (m : Memory) (a n k : Nat) :
    (m.readBytes a n).getD k 0 = if k < n then m.read (a + k) else 0 := by
  by_cases h : k < n <;> simp [Memory.readBytes, h]

/-! ## The canonical form -/

theorem Memory.wf_cons {a : Nat} {b : Byte} {m : Memory} :
    Memory.wf ((a, b) :: m) = true ↔
      a < 4096 ∧ b ≠ Memory.initial a ∧ (∀ c ∈ m, a < c.1) ∧ Memory.wf m = true := by
  simp [Memory.wf, and_assoc]

theorem Memory.wf_drop {m : Memory} (h : m.wf = true) (a : Nat) : (Memory.drop m a).wf = true := by
  induction m with
  | nil => rfl
  | cons cell m ih =>
    obtain ⟨d, e⟩ := cell
    rw [Memory.wf_cons] at h
    by_cases hd : d = a
    · simpa [Memory.drop, hd] using ih h.2.2.2
    · rw [show Memory.drop ((d, e) :: m) a = (d, e) :: Memory.drop m a by simp [Memory.drop, hd], Memory.wf_cons]
      exact ⟨h.1, h.2.1, fun c hc => h.2.2.1 c (List.mem_of_mem_filter hc), ih h.2.2.2⟩

theorem Memory.mem_put {m : Memory} {a : Nat} {b : Byte} {c : Host.Cell} (h : c ∈ Memory.put m a b) :
    c = (a, b) ∨ c ∈ m := by
  induction m with
  | nil => simpa [Memory.put] using h
  | cons cell m ih =>
    simp only [Memory.put] at h
    split at h
    · simpa using h
    · split at h
      · rcases List.mem_cons.1 h with h | h
        · exact .inl h
        · exact .inr (List.mem_cons_of_mem _ h)
      · rcases List.mem_cons.1 h with h | h
        · exact .inr (by simp [h])
        · exact (ih h).imp_right (List.mem_cons_of_mem _)

theorem Memory.wf_put {m : Memory} (h : m.wf = true) {a : Nat} (ha : a < 4096) {b : Byte}
    (hb : b ≠ Memory.initial a) : (Memory.put m a b).wf = true := by
  induction m with
  | nil => simp [Memory.put, Memory.wf, ha, hb]
  | cons cell m ih =>
    obtain ⟨d, e⟩ := cell
    have hm := Memory.wf_cons.1 h
    simp only [Memory.put]
    split
    · next hlt =>
      refine Memory.wf_cons.2 ⟨ha, hb, fun c hc => ?_, h⟩
      rcases List.mem_cons.1 hc with rfl | hc
      · exact hlt
      · exact lt_trans hlt (hm.2.2.1 c hc)
    · split
      · next heq => subst heq; exact Memory.wf_cons.2 ⟨ha, hb, hm.2.2.1, hm.2.2.2⟩
      · next hnlt hne =>
        refine Memory.wf_cons.2 ⟨hm.1, hm.2.1, fun c hc => ?_, ih hm.2.2.2⟩
        rcases Memory.mem_put hc with rfl | hc
        · omega
        · exact hm.2.2.1 c hc

/-- A write to an address that exists keeps the canonical form. -/
theorem Memory.wf_write {m : Memory} (h : m.wf = true) {a : Nat} (ha : a < 4096) (b : Byte) :
    (m.write a b).wf = true := by
  unfold Memory.write
  split
  · exact Memory.wf_drop h a
  · next hb => exact Memory.wf_put h ha hb

/-- A bulk write inside memory keeps the canonical form. -/
theorem Memory.wf_writeBytes {bs : List Byte} {m : Memory} (h : m.wf = true) {a : Nat}
    (ha : a + bs.length ≤ 4096) : (m.writeBytes a bs).wf = true := by
  induction bs generalizing m a with
  | nil => exact h
  | cons b bs ih =>
    simp only [List.length_cons] at ha
    exact ih (Memory.wf_write h (by omega) b) (by omega)

/-- Words are stored as twice as many bytes. -/
@[simp] theorem flatMap_bytes_length (ws : List Word) :
    (ws.flatMap (fun w => [highByte w, lowByte w])).length = 2 * ws.length := by
  induction ws with
  | nil => rfl
  | cons w ws ih => simp [ih]; omega

/-- Storing words inside memory keeps the canonical form. -/
theorem Memory.wf_writeWords {ws : List Word} {m : Memory} (h : m.wf = true) {a : Nat}
    (ha : a + 2 * ws.length ≤ 4096) : (m.writeWords a ws).wf = true :=
  Memory.wf_writeBytes h (by rw [flatMap_bytes_length]; exact ha)

theorem Memory.wf_filterMap (f : Nat → Byte) (as : List Nat) (hs : as.Pairwise (· < ·))
    (hb : ∀ a ∈ as, a < 4096) :
    Memory.wf (as.filterMap (fun a => if f a = Memory.initial a then none else some (a, f a))) = true := by
  induction as with
  | nil => rfl
  | cons a as ih =>
    have ih := ih (List.pairwise_cons.1 hs).2 (fun c hc => hb c (List.mem_cons_of_mem _ hc))
    by_cases h : f a = Memory.initial a
    · simpa [List.filterMap_cons, h] using ih
    · simp only [List.filterMap_cons, h, if_false]
      refine Memory.wf_cons.2 ⟨hb a (by simp), h, fun c hc => ?_, ih⟩
      obtain ⟨d, hd, hc⟩ := List.mem_filterMap.1 hc
      have := (List.pairwise_cons.1 hs).1 d hd
      split at hc
      · cases hc
      · cases hc; exact this

/-- A memory built from its bytes is canonical. -/
theorem Memory.wf_ofFn (f : Nat → Byte) : (Memory.ofFn f).wf = true :=
  Memory.wf_filterMap f _ List.pairwise_lt_range (fun a h => by simpa using h)

/-- The memory of the state after reset is canonical. -/
theorem reset_memory_wf : State.reset.mem.wf = true := rfl

end Sys2Proof.Machine
end

