-- ==== Sys2Proof/Laws/State.lean ====
section
/-! SUPPORT. For each named update of the state, each field after it; and what a register reads after one. -/

namespace Sys2Proof.Machine

variable (s : State)

/-! ## setV -/

@[simp] theorem State.setV_v (r : Reg) (b : Byte) : (s.setV r b).v = s.v.set r b := rfl
@[simp] theorem State.setV_i (r : Reg) (b : Byte) : (s.setV r b).i = s.i := rfl
@[simp] theorem State.setV_pc (r : Reg) (b : Byte) : (s.setV r b).pc = s.pc := rfl
@[simp] theorem State.setV_sp (r : Reg) (b : Byte) : (s.setV r b).sp = s.sp := rfl
@[simp] theorem State.setV_stack (r : Reg) (b : Byte) : (s.setV r b).stack = s.stack := rfl
@[simp] theorem State.setV_dt (r : Reg) (b : Byte) : (s.setV r b).dt = s.dt := rfl
@[simp] theorem State.setV_st (r : Reg) (b : Byte) : (s.setV r b).st = s.st := rfl
@[simp] theorem State.setV_mem (r : Reg) (b : Byte) : (s.setV r b).mem = s.mem := rfl
@[simp] theorem State.setV_fb (r : Reg) (b : Byte) : (s.setV r b).fb = s.fb := rfl
@[simp] theorem State.setV_engine (r : Reg) (b : Byte) : (s.setV r b).engine = s.engine := rfl
@[simp] theorem State.setV_rng (r : Reg) (b : Byte) : (s.setV r b).rng = s.rng := rfl
@[simp] theorem State.setV_seedCfg (r : Reg) (b : Byte) : (s.setV r b).seedCfg = s.seedCfg := rfl
@[simp] theorem State.setV_keyPort (r : Reg) (b : Byte) : (s.setV r b).keyPort = s.keyPort := rfl
@[simp] theorem State.setV_draws (r : Reg) (b : Byte) : (s.setV r b).draws = s.draws := rfl

/-! ## setFlag -/

@[simp] theorem State.setFlag_v (b : Byte) : (s.setFlag b).v = s.v.set flagReg b := rfl
@[simp] theorem State.setFlag_i (b : Byte) : (s.setFlag b).i = s.i := rfl
@[simp] theorem State.setFlag_pc (b : Byte) : (s.setFlag b).pc = s.pc := rfl
@[simp] theorem State.setFlag_sp (b : Byte) : (s.setFlag b).sp = s.sp := rfl
@[simp] theorem State.setFlag_stack (b : Byte) : (s.setFlag b).stack = s.stack := rfl
@[simp] theorem State.setFlag_dt (b : Byte) : (s.setFlag b).dt = s.dt := rfl
@[simp] theorem State.setFlag_st (b : Byte) : (s.setFlag b).st = s.st := rfl
@[simp] theorem State.setFlag_mem (b : Byte) : (s.setFlag b).mem = s.mem := rfl
@[simp] theorem State.setFlag_fb (b : Byte) : (s.setFlag b).fb = s.fb := rfl
@[simp] theorem State.setFlag_engine (b : Byte) : (s.setFlag b).engine = s.engine := rfl
@[simp] theorem State.setFlag_rng (b : Byte) : (s.setFlag b).rng = s.rng := rfl
@[simp] theorem State.setFlag_seedCfg (b : Byte) : (s.setFlag b).seedCfg = s.seedCfg := rfl
@[simp] theorem State.setFlag_keyPort (b : Byte) : (s.setFlag b).keyPort = s.keyPort := rfl
@[simp] theorem State.setFlag_draws (b : Byte) : (s.setFlag b).draws = s.draws := rfl

/-! ## setFlagThenV -/

@[simp] theorem State.setFlagThenV_v (r : Reg) (f b : Byte) : (s.setFlagThenV r f b).v = (s.v.set flagReg f).set r b := rfl
@[simp] theorem State.setFlagThenV_i (r : Reg) (f b : Byte) : (s.setFlagThenV r f b).i = s.i := rfl
@[simp] theorem State.setFlagThenV_pc (r : Reg) (f b : Byte) : (s.setFlagThenV r f b).pc = s.pc := rfl
@[simp] theorem State.setFlagThenV_sp (r : Reg) (f b : Byte) : (s.setFlagThenV r f b).sp = s.sp := rfl
@[simp] theorem State.setFlagThenV_stack (r : Reg) (f b : Byte) : (s.setFlagThenV r f b).stack = s.stack := rfl
@[simp] theorem State.setFlagThenV_dt (r : Reg) (f b : Byte) : (s.setFlagThenV r f b).dt = s.dt := rfl
@[simp] theorem State.setFlagThenV_st (r : Reg) (f b : Byte) : (s.setFlagThenV r f b).st = s.st := rfl
@[simp] theorem State.setFlagThenV_mem (r : Reg) (f b : Byte) : (s.setFlagThenV r f b).mem = s.mem := rfl
@[simp] theorem State.setFlagThenV_fb (r : Reg) (f b : Byte) : (s.setFlagThenV r f b).fb = s.fb := rfl
@[simp] theorem State.setFlagThenV_engine (r : Reg) (f b : Byte) : (s.setFlagThenV r f b).engine = s.engine := rfl
@[simp] theorem State.setFlagThenV_rng (r : Reg) (f b : Byte) : (s.setFlagThenV r f b).rng = s.rng := rfl
@[simp] theorem State.setFlagThenV_seedCfg (r : Reg) (f b : Byte) : (s.setFlagThenV r f b).seedCfg = s.seedCfg := rfl
@[simp] theorem State.setFlagThenV_keyPort (r : Reg) (f b : Byte) : (s.setFlagThenV r f b).keyPort = s.keyPort := rfl
@[simp] theorem State.setFlagThenV_draws (r : Reg) (f b : Byte) : (s.setFlagThenV r f b).draws = s.draws := rfl

/-! ## setI -/

@[simp] theorem State.setI_v (a : Word) : (s.setI a).v = s.v := rfl
@[simp] theorem State.setI_i (a : Word) : (s.setI a).i = a := rfl
@[simp] theorem State.setI_pc (a : Word) : (s.setI a).pc = s.pc := rfl
@[simp] theorem State.setI_sp (a : Word) : (s.setI a).sp = s.sp := rfl
@[simp] theorem State.setI_stack (a : Word) : (s.setI a).stack = s.stack := rfl
@[simp] theorem State.setI_dt (a : Word) : (s.setI a).dt = s.dt := rfl
@[simp] theorem State.setI_st (a : Word) : (s.setI a).st = s.st := rfl
@[simp] theorem State.setI_mem (a : Word) : (s.setI a).mem = s.mem := rfl
@[simp] theorem State.setI_fb (a : Word) : (s.setI a).fb = s.fb := rfl
@[simp] theorem State.setI_engine (a : Word) : (s.setI a).engine = s.engine := rfl
@[simp] theorem State.setI_rng (a : Word) : (s.setI a).rng = s.rng := rfl
@[simp] theorem State.setI_seedCfg (a : Word) : (s.setI a).seedCfg = s.seedCfg := rfl
@[simp] theorem State.setI_keyPort (a : Word) : (s.setI a).keyPort = s.keyPort := rfl
@[simp] theorem State.setI_draws (a : Word) : (s.setI a).draws = s.draws := rfl

/-! ## jump -/

@[simp] theorem State.jump_v (a : Word) : (s.jump a).v = s.v := rfl
@[simp] theorem State.jump_i (a : Word) : (s.jump a).i = s.i := rfl
@[simp] theorem State.jump_pc (a : Word) : (s.jump a).pc = a := rfl
@[simp] theorem State.jump_sp (a : Word) : (s.jump a).sp = s.sp := rfl
@[simp] theorem State.jump_stack (a : Word) : (s.jump a).stack = s.stack := rfl
@[simp] theorem State.jump_dt (a : Word) : (s.jump a).dt = s.dt := rfl
@[simp] theorem State.jump_st (a : Word) : (s.jump a).st = s.st := rfl
@[simp] theorem State.jump_mem (a : Word) : (s.jump a).mem = s.mem := rfl
@[simp] theorem State.jump_fb (a : Word) : (s.jump a).fb = s.fb := rfl
@[simp] theorem State.jump_engine (a : Word) : (s.jump a).engine = s.engine := rfl
@[simp] theorem State.jump_rng (a : Word) : (s.jump a).rng = s.rng := rfl
@[simp] theorem State.jump_seedCfg (a : Word) : (s.jump a).seedCfg = s.seedCfg := rfl
@[simp] theorem State.jump_keyPort (a : Word) : (s.jump a).keyPort = s.keyPort := rfl
@[simp] theorem State.jump_draws (a : Word) : (s.jump a).draws = s.draws := rfl

/-! ## advance -/

@[simp] theorem State.advance_v (k : Word) : (s.advance k).v = s.v := rfl
@[simp] theorem State.advance_i (k : Word) : (s.advance k).i = s.i := rfl
@[simp] theorem State.advance_pc (k : Word) : (s.advance k).pc = s.pc + k := rfl
@[simp] theorem State.advance_sp (k : Word) : (s.advance k).sp = s.sp := rfl
@[simp] theorem State.advance_stack (k : Word) : (s.advance k).stack = s.stack := rfl
@[simp] theorem State.advance_dt (k : Word) : (s.advance k).dt = s.dt := rfl
@[simp] theorem State.advance_st (k : Word) : (s.advance k).st = s.st := rfl
@[simp] theorem State.advance_mem (k : Word) : (s.advance k).mem = s.mem := rfl
@[simp] theorem State.advance_fb (k : Word) : (s.advance k).fb = s.fb := rfl
@[simp] theorem State.advance_engine (k : Word) : (s.advance k).engine = s.engine := rfl
@[simp] theorem State.advance_rng (k : Word) : (s.advance k).rng = s.rng := rfl
@[simp] theorem State.advance_seedCfg (k : Word) : (s.advance k).seedCfg = s.seedCfg := rfl
@[simp] theorem State.advance_keyPort (k : Word) : (s.advance k).keyPort = s.keyPort := rfl
@[simp] theorem State.advance_draws (k : Word) : (s.advance k).draws = s.draws := rfl

/-! ## halt -/

@[simp] theorem State.halt_v (k : ErrorKind) : (s.halt k).v = s.v := rfl
@[simp] theorem State.halt_i (k : ErrorKind) : (s.halt k).i = s.i := rfl
@[simp] theorem State.halt_pc (k : ErrorKind) : (s.halt k).pc = s.pc := rfl
@[simp] theorem State.halt_sp (k : ErrorKind) : (s.halt k).sp = s.sp := rfl
@[simp] theorem State.halt_stack (k : ErrorKind) : (s.halt k).stack = s.stack := rfl
@[simp] theorem State.halt_dt (k : ErrorKind) : (s.halt k).dt = s.dt := rfl
@[simp] theorem State.halt_st (k : ErrorKind) : (s.halt k).st = s.st := rfl
@[simp] theorem State.halt_mem (k : ErrorKind) : (s.halt k).mem = s.mem := rfl
@[simp] theorem State.halt_fb (k : ErrorKind) : (s.halt k).fb = s.fb := rfl
@[simp] theorem State.halt_engine (k : ErrorKind) : (s.halt k).engine = .halted k := rfl
@[simp] theorem State.halt_rng (k : ErrorKind) : (s.halt k).rng = s.rng := rfl
@[simp] theorem State.halt_seedCfg (k : ErrorKind) : (s.halt k).seedCfg = s.seedCfg := rfl
@[simp] theorem State.halt_keyPort (k : ErrorKind) : (s.halt k).keyPort = s.keyPort := rfl
@[simp] theorem State.halt_draws (k : ErrorKind) : (s.halt k).draws = s.draws := rfl

/-! ## sampled -/

@[simp] theorem State.sampled_v : (s.sampled).v = s.v := rfl
@[simp] theorem State.sampled_i : (s.sampled).i = s.i := rfl
@[simp] theorem State.sampled_pc : (s.sampled).pc = s.pc := rfl
@[simp] theorem State.sampled_sp : (s.sampled).sp = s.sp := rfl
@[simp] theorem State.sampled_stack : (s.sampled).stack = s.stack := rfl
@[simp] theorem State.sampled_dt : (s.sampled).dt = s.dt := rfl
@[simp] theorem State.sampled_st : (s.sampled).st = s.st := rfl
@[simp] theorem State.sampled_mem : (s.sampled).mem = s.mem := rfl
@[simp] theorem State.sampled_fb : (s.sampled).fb = s.fb := rfl
@[simp] theorem State.sampled_engine : (s.sampled).engine = s.engine := rfl
@[simp] theorem State.sampled_rng : (s.sampled).rng = s.rng := rfl
@[simp] theorem State.sampled_seedCfg : (s.sampled).seedCfg = s.seedCfg := rfl
@[simp] theorem State.sampled_keyPort : (s.sampled).keyPort = s.keyPort := rfl
@[simp] theorem State.sampled_draws : (s.sampled).draws = s.draws + 1 := rfl

/-! ## loadRegs -/

@[simp] theorem State.loadRegs_v (x : Reg) (bs : List Byte) : (s.loadRegs x bs).v = Vector.ofFn (fun r : Reg => if r ≤ x then bs.getD r.val 0 else s.getV r) := rfl
@[simp] theorem State.loadRegs_i (x : Reg) (bs : List Byte) : (s.loadRegs x bs).i = s.i := rfl
@[simp] theorem State.loadRegs_pc (x : Reg) (bs : List Byte) : (s.loadRegs x bs).pc = s.pc := rfl
@[simp] theorem State.loadRegs_sp (x : Reg) (bs : List Byte) : (s.loadRegs x bs).sp = s.sp := rfl
@[simp] theorem State.loadRegs_stack (x : Reg) (bs : List Byte) : (s.loadRegs x bs).stack = s.stack := rfl
@[simp] theorem State.loadRegs_dt (x : Reg) (bs : List Byte) : (s.loadRegs x bs).dt = s.dt := rfl
@[simp] theorem State.loadRegs_st (x : Reg) (bs : List Byte) : (s.loadRegs x bs).st = s.st := rfl
@[simp] theorem State.loadRegs_mem (x : Reg) (bs : List Byte) : (s.loadRegs x bs).mem = s.mem := rfl
@[simp] theorem State.loadRegs_fb (x : Reg) (bs : List Byte) : (s.loadRegs x bs).fb = s.fb := rfl
@[simp] theorem State.loadRegs_engine (x : Reg) (bs : List Byte) : (s.loadRegs x bs).engine = s.engine := rfl
@[simp] theorem State.loadRegs_rng (x : Reg) (bs : List Byte) : (s.loadRegs x bs).rng = s.rng := rfl
@[simp] theorem State.loadRegs_seedCfg (x : Reg) (bs : List Byte) : (s.loadRegs x bs).seedCfg = s.seedCfg := rfl
@[simp] theorem State.loadRegs_keyPort (x : Reg) (bs : List Byte) : (s.loadRegs x bs).keyPort = s.keyPort := rfl
@[simp] theorem State.loadRegs_draws (x : Reg) (bs : List Byte) : (s.loadRegs x bs).draws = s.draws := rfl

/-! ## Register reads -/

/-- A register write is seen at its register and nowhere else. -/
theorem State.getV_setV (r q : Reg) (b : Byte) :
    (s.setV r b).getV q = if q = r then b else s.getV q := by
  simp only [State.getV, State.setV, Vector.get_eq_getElem, Vector.getElem_set, eq_comm (a := q), Fin.ext_iff]

@[simp] theorem State.getV_setV_self (r : Reg) (b : Byte) : (s.setV r b).getV r = b := by
  simp [State.getV_setV]

/-- A flag write is a write of VF. -/
theorem State.getV_setFlag (q : Reg) (b : Byte) :
    (s.setFlag b).getV q = if q = flagReg then b else s.getV q :=
  s.getV_setV flagReg q b

/-- With X = F the result stays (R161). -/
theorem State.getV_setFlagThenV (r q : Reg) (f b : Byte) :
    (s.setFlagThenV r f b).getV q = if q = r then b else if q = flagReg then f else s.getV q := by
  simp only [State.setFlagThenV, State.getV_setV, State.getV_setFlag]

@[simp] theorem State.getV_setI (q : Reg) (a : Word) : (s.setI a).getV q = s.getV q := rfl

@[simp] theorem State.getV_jump (q : Reg) (a : Word) : (s.jump a).getV q = s.getV q := rfl

@[simp] theorem State.getV_advance (q : Reg) (k : Word) : (s.advance k).getV q = s.getV q := rfl

@[simp] theorem State.getV_halt (q : Reg) (k : ErrorKind) : (s.halt k).getV q = s.getV q := rfl

@[simp] theorem State.getV_sampled (q : Reg) : s.sampled.getV q = s.getV q := rfl

/-- A bulk load writes V0..VX and no other register (R205). -/
theorem State.getV_loadRegs (x q : Reg) (bs : List Byte) :
    (s.loadRegs x bs).getV q = if q ≤ x then bs.getD q.val 0 else s.getV q := by
  simp only [State.getV, State.loadRegs, Vector.get_eq_getElem, Vector.getElem_ofFn]

/-- The byte that a bulk store takes from V[k], for k in 0..X (R204). -/
theorem State.regBytes_getElem? (x : Reg) (k : Nat) :
    (s.regBytes x)[k]? = if h : k ≤ x.val then some (s.getV ⟨k, by omega⟩) else none := by
  simp only [State.regBytes, List.getElem?_map, List.getElem?_take]
  by_cases h : k ≤ x.val
  · have : k < 16 := by omega
    simp [h, this]
  · simp [h]

@[simp] theorem State.regBytes_length (x : Reg) : (s.regBytes x).length = x.val + 1 := by
  simp [State.regBytes]

end Sys2Proof.Machine
end

