-- ==== Sys2Proof/Laws/Ops.lean ====
section
/-! SUPPORT. One lemma for each shared operation, saying once everything it can do. -/

namespace Sys2Proof.Machine

variable {s t : State}

/-! ## The stack -/

/-- A push needs a free slot, and then fills it and raises SP. -/
theorem State.push_eq_some (a : Word) :
    s.push a = some t ↔ ∃ (h : s.sp.val < 16) (h' : s.sp.val + 1 < 17),
      t = { s with stack := s.stack.set s.sp.val a, sp := ⟨s.sp.val + 1, h'⟩ } := by
  unfold State.push
  by_cases h : s.sp.val < 16
  · have h' : s.sp.val + 1 < 17 := by omega
    simp [h, h', eq_comm]
  · simp [h]

/-- A push fails exactly on a full stack. -/
theorem State.push_eq_none (a : Word) : s.push a = none ↔ s.sp.val = 16 := by
  have := s.sp.isLt
  unfold State.push
  by_cases h : s.sp.val < 16
  · simp [h]; omega
  · simp [h]; omega

/-- A pop needs a saved address, and then lowers SP and leaves the slot. -/
theorem State.pop_eq_some (a : Word) :
    s.pop = some (a, t) ↔ ∃ (h : 0 < s.sp.val) (h' : s.sp.val - 1 < 17),
      a = s.stack[s.sp.val - 1]'(by omega) ∧ t = { s with sp := ⟨s.sp.val - 1, h'⟩ } := by
  unfold State.pop
  by_cases h : 0 < s.sp.val
  · have h' : s.sp.val - 1 < 17 := by omega
    simp [h, h', eq_comm]
  · simp [h]

/-- A pop fails exactly on an empty stack. -/
theorem State.pop_eq_none : s.pop = none ↔ s.sp.val = 0 := by
  unfold State.pop
  by_cases h : 0 < s.sp.val
  · simp [h]; omega
  · simp [h]; omega

/-! ## Outcomes of the shared operations -/

/-- The range check of R66, as numbers. -/
@[simp] theorem Memory.inBounds_iff (a n : Nat) : Memory.inBounds a n = true ↔ a + n ≤ 4096 := by
  simp [Memory.inBounds]

/-- A store through I either writes all its bytes and moves on, or raises and writes none. -/
theorem storeAtI_cases (bytes : List Byte) (s : State) :
    (s.i.toNat + bytes.length ≤ 4096 ∧
      storeAtI bytes s = .next (({ s with mem := s.mem.writeBytes s.i.toNat bytes } : State).advance 2)) ∨
    (4096 < s.i.toNat + bytes.length ∧ storeAtI bytes s = .next (s.halt .memoryOutOfBounds)) := by
  unfold storeAtI
  by_cases h : s.i.toNat + bytes.length ≤ 4096
  · exact .inl ⟨h, by simp [State.indexAddr, h]⟩
  · exact .inr ⟨by omega, by simp [State.indexAddr, h, raise]⟩

@[simp] theorem bcdDigits_length (b : Byte) : (bcdDigits b).length = 3 := rfl

/-- Under the policy in force a key number is its own key, and a number ≥ 16 is none. -/
theorem keyOperand_policy (b : Byte) :
    keyOperand Config.keyIndexPolicy b = if h : b.toNat < 16 then some ⟨b.toNat, h⟩ else none := by
  rfl

/-- A key skip either skips on the key's bit or raises. -/
theorem keySkip_cases (x : Reg) (held : Bool) (s : State) :
    (∃ _ : (s.getV x).toNat < 16,
      keySkip x held s = .next (s.advance (skipDistance (s.keys.getLsbD (s.getV x).toNat == held)))) ∨
    (16 ≤ (s.getV x).toNat ∧ keySkip x held s = .next (s.halt .invalidOpcode)) := by
  unfold keySkip
  rw [keyOperand_policy]
  by_cases h : (s.getV x).toNat < 16
  · exact .inl ⟨h, by simp only [h, dif_pos]; rfl⟩
  · exact .inr ⟨by omega, by simp only [h]; rfl⟩

/-- The first key is held, and none below it is. -/
theorem firstKey_eq_some {keys : Word} {k : Reg} :
    firstKey keys = some k ↔
      keys.getLsbD k.val = true ∧ ∀ j : Reg, j < k → keys.getLsbD j.val = false := by
  unfold firstKey
  rw [List.find?_eq_some_iff_getElem]
  constructor
  · rintro ⟨hk, i, hi, rfl, hlt⟩
    refine ⟨hk, fun j hj => ?_⟩
    simp only [List.getElem_finRange] at *
    simpa using hlt j.val (by simpa [Fin.lt_def] using hj)
  · rintro ⟨hk, hlt⟩
    refine ⟨hk, k.val, by simp, by simp, fun j hj => ?_⟩
    simpa using hlt ⟨j, by omega⟩ (by simpa [Fin.lt_def] using hj)

/-- There is no first key exactly when no key is held. -/
theorem firstKey_eq_none {keys : Word} : firstKey keys = none ↔ keys = 0 := by
  unfold firstKey
  rw [List.find?_eq_none]
  constructor
  · intro h
    refine BitVec.eq_of_getLsbD_eq fun i hi => ?_
    simpa using h ⟨i, hi⟩ (List.mem_finRange _)
  · rintro rfl k _
    simp

/-! ## The frame buffer -/

/-- Toggling turns over one pixel and no other. -/
theorem FrameBuffer.pixel_toggle (fb : FrameBuffer) (x px : Fin 64) (y py : Fin 32) :
    (fb.toggle x y).pixel px py = if px = x ∧ py = y then !fb.pixel px py else fb.pixel px py := by
  simp only [FrameBuffer.toggle, FrameBuffer.pixel, Vector.get_eq_getElem, Vector.getElem_set, Fin.ext_iff]
  by_cases hx : x.val = px.val
  · by_cases hy : y.val = py.val
    · simp [hx, hy]
    · simp [hx, hy, Ne.symm hy]
  · simp [hx, Ne.symm hx]

@[simp] theorem FrameBuffer.pixel_clear (fb : FrameBuffer) (x : Fin 64) (y : Fin 32) :
    fb.clear.pixel x y = false := by
  simp [FrameBuffer.clear, FrameBuffer.pixel, Vector.get_eq_getElem]

/-- Two frame buffers with the same pixels are the same. -/
theorem FrameBuffer.ext_pixel {a b : FrameBuffer} (h : ∀ x y, a.pixel x y = b.pixel x y) : a = b := by
  refine Vector.ext fun x hx => Vector.ext fun y hy => ?_
  simpa [FrameBuffer.pixel, Vector.get_eq_getElem] using h ⟨x, hx⟩ ⟨y, hy⟩

/-- A bit's target under clip: its own column and row, if both exist. -/
theorem edgeTarget_clip {tx ty : Nat} {x : Fin 64} {y : Fin 32} :
    edgeTarget .clip tx ty = some (x, y) ↔ tx = x.val ∧ ty = y.val := by
  unfold edgeTarget
  have := x.isLt
  have := y.isLt
  by_cases h : tx < 64 ∧ ty < 32
  · simp [h, Fin.ext_iff]
  · simp [h]; omega

/-- A bit's target under wrap: its column mod 64 and row mod 32. -/
theorem edgeTarget_wrap {tx ty : Nat} {x : Fin 64} {y : Fin 32} :
    edgeTarget .wrap tx ty = some (x, y) ↔ tx % 64 = x.val ∧ ty % 32 = y.val := by
  simp [edgeTarget, Fin.ext_iff, Fin.ofNat]

/-- What one sprite bit does to each pixel. -/
theorem drawBit_pixel (policy : EdgePolicy) (tx ty : Nat) (bit : Bool) (d : Drawing) (x : Fin 64) (y : Fin 32) :
    (drawBit policy tx ty bit d).1.pixel x y =
      (d.1.pixel x y ^^ (bit && decide (edgeTarget policy tx ty = some (x, y)))) := by
  unfold drawBit
  cases h : edgeTarget policy tx ty with
  | none => simp
  | some p =>
    obtain ⟨px, py⟩ := p
    cases bit
    · simp
    · simp only [if_true, FrameBuffer.pixel_toggle, Option.some.injEq, Prod.mk.injEq, Bool.true_and]
      by_cases hx : x = px ∧ y = py
      · simp [hx]
      · rw [if_neg hx]
        have : ¬ (px = x ∧ py = y) := fun ⟨a, b⟩ => hx ⟨a.symm, b.symm⟩
        simp [this]

/-- A sprite bit collides when it is set and its pixel was on. -/
theorem drawBit_collision (policy : EdgePolicy) (tx ty : Nat) (bit : Bool) (d : Drawing) :
    (drawBit policy tx ty bit d).2 = true ↔
      d.2 = true ∨ bit = true ∧ ∃ x y, edgeTarget policy tx ty = some (x, y) ∧ d.1.pixel x y = true := by
  unfold drawBit
  cases h : edgeTarget policy tx ty with
  | none => simp
  | some p =>
    obtain ⟨px, py⟩ := p
    cases bit <;> simp

end Sys2Proof.Machine
end

