-- ==== Sys2Proof/Laws/Frame.lean ====
section
/-! SUPPORT. The frame of each named update, and how frames compose. -/

namespace Sys2Proof.Machine

variable {s t u : State}

theorem Part.same_refl (s : State) (p : Part) : Part.same s s p := by
  cases p <;> simp [Part.same]

theorem Part.same_trans {p : Part} (h : Part.same s t p) (h' : Part.same t u p) : Part.same s u p := by
  cases p <;> simp_all [Part.same]

/-- Frames compose: what neither step changes is unchanged. -/
theorem SameBut.trans {ps qs : List Part} (h : SameBut ps s t) (h' : SameBut qs t u) : SameBut (ps ++ qs) s u :=
  fun p hp => Part.same_trans (h p fun m => hp (List.mem_append_left _ m)) (h' p fun m => hp (List.mem_append_right _ m))

/-- A frame may be widened. -/
theorem SameBut.mono {ps qs : List Part} (h : SameBut ps s t) (hs : ps ⊆ qs) : SameBut qs s t :=
  fun p hp => h p fun m => hp (hs m)

/-- Registers that neither step writes are unchanged. -/
theorem OtherRegs.trans {rs qs : List Reg} (h : OtherRegs rs s t) (h' : OtherRegs qs t u) : OtherRegs (rs ++ qs) s u :=
  fun r hr => (h' r fun m => hr (List.mem_append_right _ m)).trans (h r fun m => hr (List.mem_append_left _ m))

/-- A frame without the register file leaves every register. -/
theorem SameBut.otherRegs {ps : List Part} (h : SameBut ps s t) (hv : Part.v ∉ ps) (rs : List Reg) : OtherRegs rs s t :=
  fun r _ => h .v hv r

variable (s)

theorem sameBut_setV (r : Reg) (b : Byte) : SameBut [.v] s (s.setV r b) := by
  intro p hp
  cases p <;> simp [Part.same] at *

theorem sameBut_setFlagThenV (r : Reg) (f b : Byte) : SameBut [.v] s (s.setFlagThenV r f b) := by
  intro p hp
  cases p <;> simp [Part.same] at *

theorem sameBut_setI (a : Word) : SameBut [.i] s (s.setI a) := by
  intro p hp
  cases p <;> simp [Part.same] at *

theorem sameBut_jump (a : Word) : SameBut [.pc] s (s.jump a) := by
  intro p hp
  cases p <;> simp [Part.same] at *

theorem sameBut_advance (k : Word) : SameBut [.pc] s (s.advance k) := sameBut_jump s _

theorem sameBut_halt (k : ErrorKind) : SameBut [.engine] s (s.halt k) := by
  intro p hp
  cases p <;> simp [Part.same] at *

theorem sameBut_sampled : SameBut [.draws] s s.sampled := by
  intro p hp
  cases p <;> simp [Part.same] at *

theorem sameBut_loadRegs (x : Reg) (bs : List Byte) : SameBut [.v] s (s.loadRegs x bs) := by
  intro p hp
  cases p <;> simp [Part.same] at *

theorem sameBut_pop {a : Word} (h : s.pop = some (a, t)) : SameBut [.sp] s t := by
  obtain ⟨_, _, _, rfl⟩ := (State.pop_eq_some a).1 h
  intro p hp
  cases p <;> simp [Part.same, State.getV] at *

theorem sameBut_push {a : Word} (h : s.push a = some t) : SameBut [.stack, .sp] s t := by
  obtain ⟨_, _, rfl⟩ := (State.push_eq_some a).1 h
  intro p hp
  cases p <;> simp [Part.same, State.getV] at *

/-- A register write touches its own register only. -/
theorem otherRegs_setV (r : Reg) (b : Byte) : OtherRegs [r] s (s.setV r b) := by
  intro q hq
  simp only [State.getV_setV, if_neg (mt List.mem_singleton.2 hq)]

/-- A flag and register write touches VF and its own register only. -/
theorem otherRegs_setFlagThenV (r : Reg) (f b : Byte) : OtherRegs [r, 0xF] s (s.setFlagThenV r f b) := by
  intro q hq
  have h : ¬ q = r ∧ ¬ q = flagReg := by simpa [flagReg] using hq
  simp only [State.getV_setFlagThenV, if_neg h.1, if_neg h.2]

end Sys2Proof.Machine
end

