-- ==== Sys2Proof/Laws/PerInstr.lean ====
section
/-! SUPPORT. The per-instruction family RowPattern: the word of an instruction has the fixed bits of its row of
spec/opcode_table.json (30_encoding.md R87). -/

namespace Sys2Proof.Laws.RowPattern

/-- The instruction's word matches its own row. -/
def Statement (i : Instr) : Prop := encode i &&& rowMask i = rowMatch i

theorem cls : Statement (.cls) := rfl

theorem ret : Statement (.ret) := rfl

theorem jpAddr (nnn : Addr) : Statement (.jpAddr nnn) := formatA_type 0x1 nnn

theorem callAddr (nnn : Addr) : Statement (.callAddr nnn) := formatA_type 0x2 nnn

theorem seVxByte (x : Reg) (nn : Byte) : Statement (.seVxByte x nn) := formatXK_type 0x3 x nn

theorem sneVxByte (x : Reg) (nn : Byte) : Statement (.sneVxByte x nn) := formatXK_type 0x4 x nn

theorem seVxVy (x : Reg) (y : Reg) : Statement (.seVxVy x y) := formatXY_sub 0x5 x y 0x0

theorem ldVxByte (x : Reg) (nn : Byte) : Statement (.ldVxByte x nn) := formatXK_type 0x6 x nn

theorem addVxByte (x : Reg) (nn : Byte) : Statement (.addVxByte x nn) := formatXK_type 0x7 x nn

theorem ldVxVy (x : Reg) (y : Reg) : Statement (.ldVxVy x y) := formatXY_sub 0x8 x y 0x0

theorem orVxVy (x : Reg) (y : Reg) : Statement (.orVxVy x y) := formatXY_sub 0x8 x y 0x1

theorem andVxVy (x : Reg) (y : Reg) : Statement (.andVxVy x y) := formatXY_sub 0x8 x y 0x2

theorem xorVxVy (x : Reg) (y : Reg) : Statement (.xorVxVy x y) := formatXY_sub 0x8 x y 0x3

theorem addVxVy (x : Reg) (y : Reg) : Statement (.addVxVy x y) := formatXY_sub 0x8 x y 0x4

theorem subVxVy (x : Reg) (y : Reg) : Statement (.subVxVy x y) := formatXY_sub 0x8 x y 0x5

theorem shrVxVy (x : Reg) (y : Reg) : Statement (.shrVxVy x y) := formatXY_sub 0x8 x y 0x6

theorem subnVxVy (x : Reg) (y : Reg) : Statement (.subnVxVy x y) := formatXY_sub 0x8 x y 0x7

theorem shlVxVy (x : Reg) (y : Reg) : Statement (.shlVxVy x y) := formatXY_sub 0x8 x y 0xE

theorem sneVxVy (x : Reg) (y : Reg) : Statement (.sneVxVy x y) := formatXY_sub 0x9 x y 0x0

theorem ldIAddr (nnn : Addr) : Statement (.ldIAddr nnn) := formatA_type 0xA nnn

theorem jpV0Addr (nnn : Addr) : Statement (.jpV0Addr nnn) := formatA_type 0xB nnn

theorem rndVxByte (x : Reg) (nn : Byte) : Statement (.rndVxByte x nn) := formatXK_type 0xC x nn

theorem drwVxVyNibble (x : Reg) (y : Reg) (n : Nibble) : Statement (.drwVxVyNibble x y n) := formatXY_type 0xD x y n

theorem skpVx (x : Reg) : Statement (.skpVx x) := formatXK_sub 0xE x 0x9E

theorem sknpVx (x : Reg) : Statement (.sknpVx x) := formatXK_sub 0xE x 0xA1

theorem ldVxDT (x : Reg) : Statement (.ldVxDT x) := formatXK_sub 0xF x 0x07

theorem ldVxK (x : Reg) : Statement (.ldVxK x) := formatXK_sub 0xF x 0x0A

theorem ldDTVx (x : Reg) : Statement (.ldDTVx x) := formatXK_sub 0xF x 0x15

theorem ldSTVx (x : Reg) : Statement (.ldSTVx x) := formatXK_sub 0xF x 0x18

theorem addIVx (x : Reg) : Statement (.addIVx x) := formatXK_sub 0xF x 0x1E

theorem ldFVx (x : Reg) : Statement (.ldFVx x) := formatXK_sub 0xF x 0x29

theorem ldBVx (x : Reg) : Statement (.ldBVx x) := formatXK_sub 0xF x 0x33

theorem ldMemVx (x : Reg) : Statement (.ldMemVx x) := formatXK_sub 0xF x 0x55

theorem ldVxMem (x : Reg) : Statement (.ldVxMem x) := formatXK_sub 0xF x 0x65

end Sys2Proof.Laws.RowPattern
end

