-- ==== Sys2Proof/Laws/Step.lean ====
section
/-! SUPPORT. What one Step and one host transaction can do, said once. -/

namespace Sys2Proof.Machine

variable {s t : State}

/-- A finished Step's next state is the handler's, one sample later. -/
@[simp] theorem finishStep_eq_next {r : Result} : finishStep r = .next t ↔ ∃ u, r = .next u ∧ t = u.sampled := by
  cases r <;> simp [finishStep, eq_comm]

/-- Everything a Step can do when it answers a next state (R107). -/
theorem step_cases (h : step s = .next t) :
    (∃ k, s.engine = .halted k ∧ t = s) ∨
    (∃ x, s.engine = .awaitingKey x ∧ t = (s.keyWait x).sampled) ∨
    (s.engine = .running ∧ ∃ k, s.fetchInstr = .error k ∧ t = (s.halt k).sampled) ∨
    (s.engine = .running ∧ ∃ i u, s.fetchInstr = .ok i ∧ exec i s = .next u ∧ t = u.sampled) := by
  unfold step at h
  cases he : s.engine with
  | unreset => simp [he] at h
  | halted k => simp only [he, Host.Outcome.next.injEq] at h; exact .inl ⟨k, rfl, h.symm⟩
  | awaitingKey x =>
    simp only [he, finishStep_eq_next, Host.Outcome.next.injEq] at h
    obtain ⟨u, rfl, rfl⟩ := h
    exact .inr (.inl ⟨x, rfl, rfl⟩)
  | running =>
    simp only [he] at h
    cases hf : s.fetchInstr with
    | error k =>
      simp only [hf, raise, finishStep_eq_next, Host.Outcome.next.injEq] at h
      obtain ⟨u, rfl, rfl⟩ := h
      exact .inr (.inr (.inl ⟨rfl, k, rfl, rfl⟩))
    | ok i =>
      simp only [hf, finishStep_eq_next] at h
      obtain ⟨u, hu, rfl⟩ := h
      exact .inr (.inr (.inr ⟨rfl, i, u, rfl, hu, rfl⟩))

/-- The fetch check of R101, as numbers. -/
@[simp] theorem State.fetchable_iff : s.fetchable = true ↔ s.pc.toNat % 2 = 0 ∧ s.pc.toNat + 1 < 4096 := by
  simp [State.fetchable]

/-- A word that decodes is dispatched to its instruction. -/
theorem dispatchWord_eq_ok {w : Word} {i : Instr} : dispatchWord w = .ok i ↔ decode w = .ok i := by
  unfold dispatchWord
  cases decode w <;> simp

/-- An instruction is fetched exactly where the fetch check holds and the word decodes to it. -/
theorem State.fetchInstr_eq_ok {i : Instr} :
    s.fetchInstr = .ok i ↔
      (s.pc.toNat % 2 = 0 ∧ s.pc.toNat + 1 < 4096) ∧ decode (s.mem.readWord s.pc.toNat) = .ok i := by
  unfold State.fetchInstr State.fetch
  by_cases h : s.fetchable = true
  · simp only [h, if_true, dispatchWord_eq_ok, State.fetchable_iff.1 h, and_self, true_and]
  · have h' := h
    rw [State.fetchable_iff] at h'
    simp [h, h']

/-- An error before any handler runs is a failed fetch check or an illegal word, in that order (R307). -/
theorem State.fetchInstr_eq_error {k : ErrorKind} :
    s.fetchInstr = .error k ↔
      (¬ (s.pc.toNat % 2 = 0 ∧ s.pc.toNat + 1 < 4096) ∧ k = .memoryOutOfBounds) ∨
      ((s.pc.toNat % 2 = 0 ∧ s.pc.toNat + 1 < 4096) ∧ k = .invalidOpcode ∧
        ∃ why, decode (s.mem.readWord s.pc.toNat) = .error why) := by
  unfold State.fetchInstr State.fetch
  by_cases h : s.fetchable = true
  · simp only [h, if_true, State.fetchable_iff.1 h, and_self, not_true_eq_false, false_and, false_or, true_and,
      dispatchWord]
    cases decode (s.mem.readWord s.pc.toNat) <;> simp [eq_comm]
  · have h' := h
    rw [State.fetchable_iff] at h'
    simp only [h, if_false, Except.error.injEq, h', not_false_eq_true, true_and, false_and, or_false, Bool.false_eq_true]
    exact eq_comm

/-- Reset from power-on is the state after reset. -/
theorem hostReset_powerOn : State.powerOn.hostReset = State.reset := rfl

/-- A program fits when its last byte is an address (R345). -/
@[simp] theorem programFits_iff {p : List Word} : programFits p = true ↔ 0x200 + 2 * p.length ≤ 4096 := by
  simp [programFits]

end Sys2Proof.Machine
end

