-- ==== Sys2Proof/Tests/Slice0.lean ====
section
/-! SUPPORT. Tests of the model: their expected values come from 95_test_vectors.md (named in each comment) or by hand
from the rules; and a witness for the hypotheses of every obligation that has some. -/

namespace Sys2Proof.Tests

open Sys2Proof.Machine

/-! ## Helpers -/

/-- The state after Reset with some registers set. -/
def regs (rs : List (Reg × Byte)) : State := rs.foldl (fun s p => s.setV p.1 p.2) State.reset

/-- The state after Reset with I and some registers set. -/
def indexed (i : Word) (rs : List (Reg × Byte)) : State := { regs rs with i := i }

/-- One Step with the word at PC; nothing unless it answers a next state. -/
def run (w : Nat) (s : State) : Option State :=
  match step (s.withFetchWord 16 w) with
  | .next t => some t
  | .fault _ => none
  | .refused _ => none

/-- PC and some registers after one Step with the word at PC. -/
def regsAfter (w : Nat) (rs : List Reg) (s : State) : Option (Nat × List Nat) :=
  (run w s).map fun t => (t.pc.toNat, rs.map fun r => (t.getV r).toNat)

/-- I after one Step. -/
def iAfter (w : Nat) (s : State) : Option Nat := (run w s).map fun t => t.i.toNat

/-- The `n` bytes at `a` after one Step. -/
def bytesAfter (w a n : Nat) (s : State) : Option (List Nat) :=
  (run w s).map fun t => (t.mem.readBytes a n).map (·.toNat)

/-- The engine state and PC after one Step. -/
def engineAfter (w : Nat) (s : State) : Option (Engine × Nat) := (run w s).map fun t => (t.engine, t.pc.toNat)

/-- The lit pixels of the given columns and rows. -/
def lit (fb : FrameBuffer) (xs : List (Fin 64)) (ys : List (Fin 32)) : List (Nat × Nat) :=
  ys.flatMap fun y => (xs.filter fun x => fb.pixel x y).map fun x => (x.val, y.val)

/-! ## Well-formedness -/

/-- R87, R88: DXY0 is no instruction, and every other constructor takes any operand. -/
theorem test_wf_refuses_drw_height_zero : (Instr.drwVxVyNibble 1 2 0).wf = false := by decide
theorem test_wf_accepts_drw_height_one : (Instr.drwVxVyNibble 1 2 1).wf = true := by decide

/-! ## Decoding: one word per constructor, written out from R86 -/

theorem test_decode_cls : decode 0b0000000011100000 = .ok .cls := by decide
theorem test_decode_ret : decode 0b0000000011101110 = .ok .ret := by decide
theorem test_decode_jp : decode 0x1ABC = .ok (.jpAddr 0xABC) := by decide
theorem test_decode_call : decode 0x2F01 = .ok (.callAddr 0xF01) := by decide
theorem test_decode_se_byte : decode 0x3A12 = .ok (.seVxByte 0xA 0x12) := by decide
theorem test_decode_sne_byte : decode 0x4FE1 = .ok (.sneVxByte 0xF 0xE1) := by decide
theorem test_decode_se_reg : decode 0x5C30 = .ok (.seVxVy 0xC 0x3) := by decide
theorem test_decode_ld_byte : decode 0x61FA = .ok (.ldVxByte 0x1 0xFA) := by decide
theorem test_decode_add_byte : decode 0x7301 = .ok (.addVxByte 0x3 0x01) := by decide
theorem test_decode_ld_reg : decode 0x8120 = .ok (.ldVxVy 0x1 0x2) := by decide
theorem test_decode_or : decode 0x8EF1 = .ok (.orVxVy 0xE 0xF) := by decide
theorem test_decode_and : decode 0x8122 = .ok (.andVxVy 0x1 0x2) := by decide
theorem test_decode_xor : decode 0x8703 = .ok (.xorVxVy 0x7 0x0) := by decide
theorem test_decode_add : decode 0x8F14 = .ok (.addVxVy 0xF 0x1) := by decide
theorem test_decode_sub : decode 0x81F5 = .ok (.subVxVy 0x1 0xF) := by decide
theorem test_decode_shr : decode 0x8A56 = .ok (.shrVxVy 0xA 0x5) := by decide
theorem test_decode_subn : decode 0x8127 = .ok (.subnVxVy 0x1 0x2) := by decide
theorem test_decode_shl : decode 0b1000101010111110 = .ok (.shlVxVy 0xA 0xB) := by decide
theorem test_decode_sne_reg : decode 0x9D40 = .ok (.sneVxVy 0xD 0x4) := by decide
theorem test_decode_ld_i : decode 0xA04B = .ok (.ldIAddr 0x04B) := by decide
theorem test_decode_jp_v0 : decode 0xBFFE = .ok (.jpV0Addr 0xFFE) := by decide
theorem test_decode_rnd : decode 0xC30F = .ok (.rndVxByte 0x3 0x0F) := by decide
theorem test_decode_drw : decode 0b1101000100100101 = .ok (.drwVxVyNibble 0x1 0x2 0x5) := by decide
theorem test_decode_skp : decode 0xE29E = .ok (.skpVx 0x2) := by decide
theorem test_decode_sknp : decode 0xEDA1 = .ok (.sknpVx 0xD) := by decide
theorem test_decode_ld_dt : decode 0xF307 = .ok (.ldVxDT 0x3) := by decide
theorem test_decode_ld_k : decode 0xF30A = .ok (.ldVxK 0x3) := by decide
theorem test_decode_set_dt : decode 0xF015 = .ok (.ldDTVx 0x0) := by decide
theorem test_decode_set_st : decode 0xF118 = .ok (.ldSTVx 0x1) := by decide
theorem test_decode_add_i : decode 0xFF1E = .ok (.addIVx 0xF) := by decide
theorem test_decode_ld_f : decode 0xF029 = .ok (.ldFVx 0x0) := by decide
theorem test_decode_bcd : decode 0xF433 = .ok (.ldBVx 0x4) := by decide
theorem test_decode_store : decode 0xF355 = .ok (.ldMemVx 0x3) := by decide
theorem test_decode_load : decode 0xF465 = .ok (.ldVxMem 0x4) := by decide

/-- V-DEC-1 and V-DEC-2: the fields. -/
theorem test_fields : fields 0xD125 = ⟨0xD, 0x1, 0x2, 0x5, 0x25, 0x125⟩ ∧ (fields 0x8ABE).nnn = 0xABE := by decide

/-- V-DEC-6 and V-ALU-35: illegal words, each by its name. -/
theorem test_decode_illegal :
    decode 0x5121 = .error .type5 ∧ decode 0x9121 = .error .type9 ∧ decode 0x0123 = .error .type0 ∧
    decode 0x00E1 = .error .type0 ∧ decode 0x00FE = .error .type0 ∧ decode 0x8128 = .error .type8 ∧
    decode 0x812C = .error .type8 ∧ decode 0x812F = .error .type8 ∧ decode 0xD120 = .error .drawHeightZero ∧
    decode 0xE1A2 = .error .typeE ∧ decode 0xE19F = .error .typeE ∧ decode 0xF1FF = .error .typeF ∧
    decode 0xF100 = .error .typeF := by decide

/-- R64, R82: the encoder's word, and the host's entry reads it big-endian. -/
theorem test_encode_shl : encode (.shlVxVy 0xA 0xB) = 0x8ABE := by decide
theorem test_decodeTableWord : decodeTableWord 16 0x8ABE = some (.shlVxVy 0xA 0xB) := by decide

/-! ## The Step -/

/-- V-LD-3: from Reset with nothing loaded the first Step raises InvalidOpcode at 0x200. -/
theorem test_step_reset : step State.reset = .next { State.reset with engine := .halted .invalidOpcode, draws := 2 } :=
  rfl

/-- V-FET-1, V-FET-2. -/
theorem test_fetch_odd :
    step { State.reset with pc := 0x201 } =
      .next { State.reset with pc := 0x201, engine := .halted .memoryOutOfBounds, draws := 2 } := rfl
theorem test_fetch_end :
    step { State.reset with pc := 0x1000 } =
      .next { State.reset with pc := 0x1000, engine := .halted .memoryOutOfBounds, draws := 2 } := rfl

/-- V-FET-3: the last word of memory runs. -/
theorem test_fetch_last_word : regsAfter 0x6001 [0] { State.reset with pc := 0xFFE } = some (0x1000, [1]) := by decide

/-! ## Control flow -/

/-- V-CF-1, V-CF-4, V-CF-5. -/
theorem test_jp : regsAfter 0x1ABC [] State.reset = some (0xABC, []) := by decide
theorem test_jp_v0 : regsAfter 0xB300 [] (regs [(0, 0x10)]) = some (0x310, []) := by decide
theorem test_jp_v0_exact : regsAfter 0xBFFF [] (regs [(0, 0xFF)]) = some (0x10FE, []) := by decide

/-- V-CF-9, V-CF-10, V-CF-8. -/
theorem test_call_last_slot :
    (run 0x2300 { State.reset with sp := 15 }).map (fun t => (t.pc, t.sp, t.stack.get 15)) =
      some (0x300, 16, 0x200) := by decide
theorem test_call_full :
    (run 0x2300 { State.reset with sp := 16 }).map (fun t => (t.engine, t.pc, t.sp)) =
      some (.halted .stackOverflow, 0x200, 16) := by decide

/-- W3's second step, and V-CF-7. -/
theorem test_ret :
    (run 0x00EE { State.reset with sp := 1, stack := Vector.replicate 16 0x204 }).map (fun t => (t.pc, t.sp)) =
      some (0x206, 0) := by decide
theorem test_ret_empty : engineAfter 0x00EE State.reset = some (.halted .stackUnderflow, 0x200) := by decide

/-- V-CF-3a to V-CF-3e: both branches. -/
theorem test_se_byte :
    regsAfter 0x3012 [] (regs [(0, 0x12)]) = some (0x204, []) ∧
    regsAfter 0x3013 [] (regs [(0, 0x12)]) = some (0x202, []) := by decide
theorem test_sne_byte :
    regsAfter 0x4012 [] (regs [(0, 0x12)]) = some (0x202, []) ∧
    regsAfter 0x4013 [] (regs [(0, 0x12)]) = some (0x204, []) := by decide
theorem test_se_reg :
    regsAfter 0x5010 [] (regs [(0, 0x33), (1, 0x33)]) = some (0x204, []) ∧
    regsAfter 0x5010 [] (regs [(0, 0x33), (1, 0x34)]) = some (0x202, []) := by decide
theorem test_sne_reg :
    regsAfter 0x9010 [] (regs [(0, 0x33), (1, 0x34)]) = some (0x204, []) ∧
    regsAfter 0x9000 [] (regs [(0, 0x33)]) = some (0x202, []) := by decide

/-! ## Registers, arithmetic, logic, shifts, random -/

/-- V-ALU-1. -/
theorem test_ld_byte : regsAfter 0x60FA [0] State.reset = some (0x202, [0xFA]) := by decide

/-- V-ALU-2, V-ALU-3. -/
theorem test_add_byte_wraps : regsAfter 0x7301 [3, 15] (regs [(3, 0xFF), (15, 0x77)]) = some (0x202, [0, 0x77]) := by
  decide
theorem test_add_byte_vf : regsAfter 0x7F05 [15] (regs [(15, 0x10)]) = some (0x202, [0x15]) := by decide

/-- V-ALU-4. -/
theorem test_ld_reg : regsAfter 0x8120 [1, 2] (regs [(2, 0x5A)]) = some (0x202, [0x5A, 0x5A]) := by decide

/-- V-ALU-5 to V-ALU-8. -/
theorem test_or_keeps_vf :
    regsAfter 0x8121 [1, 15] (regs [(1, 0x0F), (2, 0xF0), (15, 0x77)]) = some (0x202, [0xFF, 0x77]) := by decide
theorem test_and : regsAfter 0x8122 [1] (regs [(1, 0x3C), (2, 0x0F)]) = some (0x202, [0x0C]) := by decide
theorem test_xor : regsAfter 0x8123 [1] (regs [(1, 0xFF), (2, 0x0F)]) = some (0x202, [0xF0]) := by decide
theorem test_xor_self : regsAfter 0x8113 [1] (regs [(1, 0x55)]) = some (0x202, [0]) := by decide

/-- W5 and V-ALU-11; V-ALU-13 and V-ALU-14. -/
theorem test_add_carry :
    regsAfter 0x8014 [0, 15] (regs [(0, 0xFA), (1, 0x12)]) = some (0x202, [0x0C, 1]) ∧
    regsAfter 0x8014 [0, 15] (regs [(0, 0x7F), (1, 0x80)]) = some (0x202, [0xFF, 0]) := by decide
theorem test_add_vf :
    regsAfter 0x8F14 [15] (regs [(15, 0xFA), (1, 0x12)]) = some (0x202, [0x0C]) ∧
    regsAfter 0x80F4 [0, 15] (regs [(0, 0x01), (15, 0xFF)]) = some (0x202, [0, 1]) := by decide

/-- V-ALU-15 to V-ALU-19. -/
theorem test_sub_borrow :
    regsAfter 0x8125 [1, 15] (regs [(1, 5), (2, 3)]) = some (0x202, [2, 1]) ∧
    regsAfter 0x8125 [1, 15] (regs [(1, 3), (2, 5)]) = some (0x202, [0xFE, 0]) ∧
    regsAfter 0x8125 [1, 15] (regs [(1, 7), (2, 7)]) = some (0x202, [0, 0]) := by decide
theorem test_sub_vf :
    regsAfter 0x8F25 [15] (regs [(15, 0x10), (2, 0x01)]) = some (0x202, [0x0F]) ∧
    regsAfter 0x81F5 [1, 15] (regs [(1, 0x10), (15, 0x01)]) = some (0x202, [0x0F, 1]) := by decide

/-- V-ALU-20 to V-ALU-23. -/
theorem test_subn_borrow :
    regsAfter 0x8127 [1, 15] (regs [(1, 3), (2, 5)]) = some (0x202, [2, 1]) ∧
    regsAfter 0x8127 [1, 15] (regs [(1, 5), (2, 3)]) = some (0x202, [0xFE, 0]) ∧
    regsAfter 0x8127 [1, 15] (regs [(1, 7), (2, 7)]) = some (0x202, [0, 0]) := by decide
theorem test_subn_vf : regsAfter 0x8F17 [15] (regs [(15, 0x10), (1, 0x30)]) = some (0x202, [0x20]) := by decide

/-- V-ALU-24, V-ALU-27. -/
theorem test_shr : regsAfter 0x8126 [1, 15] (regs [(1, 0x05), (2, 0xF0)]) = some (0x202, [0x02, 1]) := by decide
theorem test_shr_vf : regsAfter 0x8F06 [15] (regs [(15, 0x03)]) = some (0x202, [0x01]) := by decide

/-- V-ALU-29, V-ALU-32, V-ALU-31. -/
theorem test_shl :
    regsAfter 0x810E [1, 15] (regs [(1, 0x40)]) = some (0x202, [0x80, 0]) ∧
    regsAfter 0x81FE [1, 15] (regs [(1, 0x40), (15, 0x81)]) = some (0x202, [0x80, 0]) := by decide
theorem test_shl_vf : regsAfter 0x8F0E [15] (regs [(15, 0x81)]) = some (0x202, [0x02]) := by decide

/-- V-ALU-34: the generator advances once, even under the mask 0. -/
theorem test_rnd_advances (s : State) :
    exec (.rndVxByte 3 0) s =
      .next ((({ s with rng := (Config.rngNext s.rng).2 } : State).setV 3 ((Config.rngNext s.rng).1 &&& 0)).advance 2) :=
  rfl

/-! ## Index and memory -/

/-- V-IM-1; V-IM-3 and V-IM-4; V-IM-5, V-IM-7 and V-IM-8. -/
theorem test_ld_i : iAfter 0xA123 State.reset = some 0x123 := by decide
theorem test_add_i :
    iAfter 0xF11E (indexed 0x0FFF [(1, 0x01)]) = some 0x1000 ∧
    iAfter 0xFF1E (indexed 0xFFFF [(15, 0x02)]) = some 0x0001 := by decide
theorem test_ld_f :
    iAfter 0xF029 (regs [(0, 0x0F)]) = some 0x04B ∧ iAfter 0xF029 (regs [(0, 0x10)]) = some 0x050 ∧
    iAfter 0xF029 (regs [(0, 0xFF)]) = some 0x4FB := by decide

/-- V-IM-11, V-IM-12. -/
theorem test_bcd : bytesAfter 0xF033 0xFFD 3 (indexed 0xFFD [(0, 0x7B)]) = some [1, 2, 3] := by decide
theorem test_bcd_beyond : engineAfter 0xF033 (indexed 0xFFE []) = some (.halted .memoryOutOfBounds, 0x200) := by decide

/-- V-IM-14, V-IM-15. -/
theorem test_store :
    bytesAfter 0xF355 0xFFC 4 (indexed 0xFFC [(0, 0x11), (1, 0x22), (2, 0x33), (3, 0x44)]) =
      some [0x11, 0x22, 0x33, 0x44] := by decide
theorem test_store_beyond : engineAfter 0xF355 (indexed 0xFFD []) = some (.halted .memoryOutOfBounds, 0x200) := by decide

/-- V-IM-18, V-IM-17. -/
theorem test_load_glyph_f :
    regsAfter 0xF465 [0, 1, 2, 3, 4, 5] (indexed 0x04B [(5, 0x99)]) =
      some (0x202, [0xF0, 0x80, 0xF0, 0x80, 0x80, 0x99]) := by decide
theorem test_load_beyond : engineAfter 0xF065 (indexed 0x1000 []) = some (.halted .memoryOutOfBounds, 0x200) := by decide

/-! ## Display -/

/-- V-FB-10, W7: the eleven pixels of glyph F at (1,3), VF = 0. -/
theorem test_drw :
    (run 0xD015 (indexed 0x04B [(0, 1), (1, 3), (15, 9)])).map (fun t =>
      (lit t.fb [0, 1, 2, 3, 4, 5] [2, 3, 4, 5, 6, 7, 8], t.getV 15, t.pc)) =
      some ([(1, 3), (2, 3), (3, 3), (4, 3), (1, 4), (1, 5), (2, 5), (3, 5), (4, 5), (1, 6), (1, 7)], 0, 0x202) := by
  decide

/-- V-FB-13: the check comes before the drawing. -/
theorem test_drw_beyond :
    engineAfter 0xD005 (indexed 0xFFC [(0, 64)]) = some (.halted .memoryOutOfBounds, 0x200) := by decide

/-- V-FB-15. -/
theorem test_cls :
    (run 0x00E0 { State.reset with fb := State.reset.fb.toggle 5 6 }).map (fun t => (t.fb.pixel 5 6, t.pc)) =
      some (false, 0x202) := by decide

/-- V-FB-3: the collision. -/
theorem test_draw_collision :
    (State.reset.fb.toggle 0 0).draw .clip 0 0 [0xC0] = (State.reset.fb.toggle 1 0, true) := by decide

/-- V-FB-4, V-FB-5: the two edge policies. -/
theorem test_draw_clip :
    lit (State.reset.fb.draw .clip 62 30 Config.glyphF).1 [0, 1, 62, 63] [0, 1, 2, 30, 31] =
      [(62, 30), (63, 30), (62, 31)] := by decide
theorem test_draw_wrap :
    lit (State.reset.fb.draw .wrap 62 30 Config.glyphF).1 [0, 1, 62, 63] [0, 1, 2, 30, 31] =
      [(0, 0), (1, 0), (62, 0), (63, 0), (62, 1), (62, 2), (0, 30), (1, 30), (62, 30), (63, 30), (62, 31)] := by decide

/-! ## Timers and keypad -/

/-- V-TK-4, V-TK-1, V-TK-5. -/
theorem test_ld_dt : regsAfter 0xF307 [3] { State.reset with dt := 0x3C } = some (0x202, [0x3C]) := by decide
theorem test_set_dt : (run 0xF015 (regs [(0, 0x3C)])).map (fun t => (t.dt, t.hostTick.dt)) = some (0x3C, 0x3B) := by decide
theorem test_set_st : (run 0xF118 (regs [(1, 5)])).map (fun t => t.st) = some 5 := by decide

/-- V-TK-7, V-TK-8, V-TK-9, V-TK-10. -/
theorem test_skp :
    regsAfter 0xE29E [] { regs [(2, 5)] with keyPort := some 0x0020 } = some (0x204, []) ∧
    regsAfter 0xE29E [] { regs [(2, 5)] with keyPort := some 0x0000 } = some (0x202, []) := by decide
theorem test_sknp :
    regsAfter 0xE2A1 [] { regs [(2, 5)] with keyPort := some 0x0020 } = some (0x202, []) ∧
    regsAfter 0xE2A1 [] { regs [(2, 5)] with keyPort := some 0xFFDF } = some (0x204, []) := by decide

/-- V-TK-11, under both policies. -/
theorem test_key_index :
    engineAfter 0xE29E (regs [(2, 0x10)]) = some (.halted .invalidOpcode, 0x200) ∧
    keyOperand .lowNibble 0x10 = some 0 := by decide

/-- V-TK-12, V-TK-14. -/
theorem test_key_wait_entry : engineAfter 0xF30A (regs []) = some (.awaitingKey 3, 0x200) := by decide
theorem test_key_wait_end :
    transact .step { State.reset with engine := .awaitingKey 3, keyPort := some 0x8100 } =
      .next (.ok, { State.reset with v := State.reset.v.set 3 8, pc := 0x202, keyPort := some 0x8100, draws := 2 }) :=
  rfl

/-! ## Host transactions -/

/-- V-LD-4, V-LD-1, V-LD-2. -/
theorem test_load_big_endian : (State.reset.hostLoad [0xABCD]).mem = [(0x200, 0xAB), (0x201, 0xCD)] := by decide
theorem test_load_limit :
    programFits (List.replicate 1792 0) = true ∧ programFits (List.replicate 1793 0) = false := by
  simp only [programFits, List.length_replicate]
  decide

/-- V-TK-6, V-TK-2. -/
theorem test_tick_halted :
    ({ State.reset with dt := 3, engine := .halted .invalidOpcode } : State).hostTick =
      { State.reset with dt := 2, engine := .halted .invalidOpcode } := by rfl

/-! ## Witnesses: for each obligation with hypotheses, an input that meets them all, at the edges of each clause -/

/-- The state after Reset with the words stored from 0x200 up. -/
def program (ws : List Word) : State := { State.reset with mem := Memory.writeWords [] 0x200 ws }

/-- The state after Reset in an engine state, with a keypad sample. -/
def engineIs (e : Engine) (keys : Word) : State := { State.reset with engine := e, keyPort := some keys }

/-- The state after Reset with `n` live slots, every slot holding `a`. -/
def stacked (n : Fin 17) (a : Word) : State := { State.reset with sp := n, stack := Vector.replicate 16 a }

/-- A run of the call: the state after `2204` at 0x200. -/
def called : State := { program [0x2204] with stack := State.reset.stack.set 0 0x200, sp := 1, pc := 0x204 }

theorem test_witness_DecodeEncodeAgree :
    (Instr.drwVxVyNibble 15 0 1).wf = true ∧ (Instr.drwVxVyNibble 0 15 15).wf = true ∧ Instr.ret.wf = true := by decide

theorem test_witness_DecodedWordIsItsEncoding : decode 0xFF65 = .ok (.ldVxMem 15) ∧ decode 0x1000 = .ok (.jpAddr 0) := by
  decide

/-- Each line of R88's list has a word, and a Step meets one at the last even address. -/
theorem test_witness_IllegalWordsRaiseInvalidOpcode :
    IllegalWord 0x0000 ∧ IllegalWord 0x500F ∧ IllegalWord 0x8008 ∧ IllegalWord 0x9001 ∧ IllegalWord 0xDFF0 ∧
    IllegalWord 0xE000 ∧ IllegalWord 0xFFFF ∧
    ({ State.reset with pc := 0xFFE } : State).pc.toNat + 1 < 4096 ∧
    IllegalWord (State.reset.mem.read 0xFFE ++ State.reset.mem.read 0xFFF) := by
  refine ⟨?_, ?_, ?_, ?_, ?_, ?_, ?_, by decide, ?_⟩ <;> unfold IllegalWord <;> decide

theorem test_witness_StepRunsDecodedInstruction :
    (program [0x8014]).engine = .running ∧ (program [0x8014]).pc.toNat % 2 = 0 ∧
    (program [0x8014]).pc.toNat + 1 < 4096 ∧
    decode ((program [0x8014]).mem.read 0x200 ++ (program [0x8014]).mem.read 0x201) = .ok (.addVxVy 0 1) := by decide

/-- The two clauses meet at an odd PC at the end of memory, with one outcome. -/
theorem test_witness_BadFetchRaisesMemoryOutOfBounds :
    State.reset.engine = .running ∧ (0x201 : Word).toNat % 2 = 1 ∧ (0xFFF : Word).toNat % 2 = 1 ∧
    4096 ≤ (0xFFF : Word).toNat + 1 ∧ 4096 ≤ (0x1000 : Word).toNat + 1 ∧ (0xFFFF : Word).toNat % 2 = 1 := by decide

theorem test_witness_FailedStepChangesOnlyEngine :
    State.reset.engine = .running ∧
    step State.reset = .next { State.reset with engine := .halted .invalidOpcode, draws := 2 } := ⟨rfl, rfl⟩

theorem test_witness_HaltedIsTerminalForStep :
    transact .tickTimers (engineIs (.halted .stackOverflow) 0) = .next (.ok, (engineIs (.halted .stackOverflow) 0)) ∧
    ∃ t, transact .reset (engineIs (.halted .stackOverflow) 0) = .next (.ok, t) ∧ t.engine = .running :=
  ⟨rfl, _, rfl, rfl⟩

theorem test_witness_StepCompletesUnlessUnreset :
    (engineIs .unreset 0).engine = .unreset ∧ (engineIs (.awaitingKey 15) 0).engine ≠ .unreset ∧
    (engineIs (.halted .programTooLarge) 0).engine ≠ .unreset ∧ State.reset.engine ≠ .unreset := by decide

/-- No key, the lowest key, the highest key. -/
theorem test_witness_AwaitingStepTakesLowestKey :
    (engineIs (.awaitingKey 15) 0).keys = 0 ∧ (engineIs (.awaitingKey 0) 0x8001).keys ≠ 0 ∧
    (engineIs (.awaitingKey 3) 0x8000).keys ≠ 0 ∧ firstKey 0x8001 = some 0 ∧ firstKey 0x8000 = some 15 := by decide

/-- Each transaction, and a Step in each engine state that has one. -/
theorem test_witness_EngineTransitions :
    (∃ t, transact .reset State.powerOn = .next (.ok, t)) ∧
    (∃ t, transact (.load (List.replicate 1792 0)) State.reset = .next (.ok, t)) ∧
    (∃ t, transact (.load (List.replicate 1793 0)) State.reset = .next (.err .programTooLarge, t)) ∧
    (∃ t, transact .step (program [0x1200]) = .next (.ok, t) ∧ t.engine = .running) ∧
    (∃ t, transact .step State.reset = .next (.err .invalidOpcode, t)) ∧
    (∃ t, transact .step (program [0xF30A]) = .next (.ok, t) ∧ t.engine = .awaitingKey 3) ∧
    (∃ t, transact .step (engineIs (.halted .stackOverflow) 0) = .next (.halted, t)) ∧
    (∃ t, transact .step (engineIs (.awaitingKey 3) 0) = .next (.ok, t)) ∧
    (∃ t, transact (.seed 7) State.powerOn = .next (.ok, t)) ∧
    (∃ t, transact .tickTimers State.powerOn = .next (.ok, t)) ∧
    (∃ t, transact (.keys none) State.powerOn = .next (.ok, t)) := by
  refine ⟨⟨_, rfl⟩, ⟨State.reset.hostLoad (List.replicate 1792 0), ?_⟩,
    ⟨State.reset.hostLoad (List.replicate 1793 0), ?_⟩, ⟨_, rfl, rfl⟩, ⟨_, rfl⟩, ⟨_, rfl, rfl⟩, ⟨_, rfl⟩, ⟨_, rfl⟩,
    ⟨_, rfl⟩, ⟨_, rfl⟩, ⟨_, rfl⟩⟩
  · simp only [transact, test_load_limit.1]; rfl
  · simp only [transact, test_load_limit.2]; rfl

/-- Both clauses of a Step from Running: an FX0A fetched, and another instruction. -/
theorem test_witness_EngineTransitions_fetched :
    (program [0xF30A]).fetchInstr = .ok (.ldVxK 3) ∧ ∀ x, (program [0x1200]).fetchInstr ≠ .ok (.ldVxK x) :=
  ⟨rfl, fun _ h => nomatch h⟩

theorem test_witness_ReturnGoesBeyondCallSite :
    (stacked 0 0).sp.val = 0 ∧ 0 < (stacked 1 0xFFE).sp.val ∧ 0 < (stacked 16 0xFFE).sp.val := by decide

theorem test_witness_ReturnGoesBeyondCallSite_invariant : called.Inv ∧ called.engine ≠ .unreset ∧ 0 < called.sp.val :=
  ⟨⟨by decide, fun _ => by decide, fun _ => by decide, by decide, fun x h => by simp [called, program, State.reset] at h⟩,
    by decide, by decide⟩

theorem test_witness_CallSavesCallSite :
    (stacked 16 0x200).sp.val = 16 ∧ (stacked 15 0x200).sp.val < 16 ∧ (stacked 0 0x200).sp.val < 16 := by decide

/-- The callee may have called: the slot at the call's SP holds another value by then. -/
theorem test_witness_ReturnUndoesCall :
    (program [0x2204]).sp.val < 16 ∧ exec (.callAddr 0x204) (program [0x2204]) = .next called ∧
    (∀ k : Fin 16, k.val < called.sp.val → (called.stack.set 1 0x208).get k = called.stack.get k) ∧
    called.stack.set 1 0x208 ≠ called.stack := ⟨by decide, rfl, by decide, by decide⟩

/-- The flag clauses of 8XY4 to 8XYE need X ≠ F; the carry and the comparisons meet at 255 and at equality. -/
theorem test_witness_FlagClauses :
    (0 : Reg) ≠ 0xF ∧ (0xE : Reg) ≠ 0xF ∧
    regsAfter 0x8014 [15] (regs [(0, 0xFF), (1, 0)]) = some (0x202, [0]) ∧
    regsAfter 0x8014 [15] (regs [(0, 0xFF), (1, 1)]) = some (0x202, [1]) := by decide

theorem test_witness_BcdStoresDigits : (indexed 0xFFD []).i.toNat + 3 ≤ 4096 ∧ 4096 < (indexed 0xFFE []).i.toNat + 3 := by
  decide

theorem test_witness_StoreRegisters :
    (indexed 0xFFF []).i.toNat + (0 : Reg).val + 1 ≤ 4096 ∧ 4096 < (indexed 0x1000 []).i.toNat + (0 : Reg).val + 1 ∧
    (indexed 0xFF0 []).i.toNat + (15 : Reg).val + 1 ≤ 4096 ∧ 4096 < (indexed 0xFF1 []).i.toNat + (15 : Reg).val + 1 := by
  decide

theorem test_witness_LoadRegisters :
    (indexed 0xFFC []).i.toNat + (3 : Reg).val + 1 ≤ 4096 ∧ 4096 < (indexed 0xFFD []).i.toNat + (3 : Reg).val + 1 := by
  decide

/-- W9's store; the state the load runs in may be the one after it. -/
theorem test_witness_LoadRestoresStoredRegisters :
    (indexed 0x300 [(0, 0x11), (3, 0x44)]).i.toNat + (3 : Reg).val + 1 ≤ 4096 ∧
    ∃ t, exec (.ldMemVx 3) (indexed 0x300 [(0, 0x11), (3, 0x44)]) = .next t := ⟨by decide, _, rfl⟩

/-- The fetched word starts at the last stored byte, at the first, and one before it; both stores complete. -/
theorem test_witness_StoreIsSeenByFetch :
    ({ State.reset with pc := 0xFFE } : State).pc.toNat % 2 = 0 ∧
    ({ State.reset with pc := 0xFFE } : State).pc.toNat + 1 < 4096 ∧
    (indexed 0xFFE [(0, 0x12)]).i.toNat + (1 : Reg).val + 1 ≤ 4096 ∧ (1 : Reg) ≤ 1 ∧
    (indexed 0xFFD [(0, 0x7B)]).i.toNat + 3 ≤ 4096 ∧
    (∃ t, exec (.ldMemVx 1) (indexed 0xFFE [(0, 0x12)]) = .next t) ∧
    (∃ t, exec (.ldBVx 0) (indexed 0xFFD [(0, 0x7B)]) = .next t) ∧
    (decimalDigit 0x7B 0, decimalDigit 0x7B 1, decimalDigit 0x7B 2) = (1, 2, 3) :=
  ⟨by decide, by decide, by decide, by decide, by decide, ⟨_, rfl⟩, ⟨_, rfl⟩, by decide⟩

/-- The covered and the uncovered pixels: the last column and row under each policy. -/
theorem test_witness_DrawXorsCoveredPixels :
    (List.replicate 15 (0xFF : Byte)).length ≤ 15 ∧ ClipCovers 63 31 [0x80] 63 31 ∧ ¬ ClipCovers 0 0 [0x80] 1 0 ∧
    WrapCovers 63 31 [0x40] 0 31 :=
  ⟨by decide, ⟨0, 0, by decide, by decide, by decide, by decide⟩,
    fun ⟨_, c, hc, h1, h2, hb⟩ => by
      simp only [Nat.zero_add] at h1 h2
      subst h1 h2
      revert hb
      decide,
    ⟨0, 1, by decide, by decide, by decide, by decide⟩⟩

/-- V-FB-11, V-FB-12. -/
theorem test_witness_DrawSprite :
    (indexed 0xFFB []).i.toNat + (5 : Nibble).toNat ≤ 4096 ∧ 4096 < (indexed 0xFFC []).i.toNat + (5 : Nibble).toNat := by
  decide

/-- W7 under clip, V-FB-5 under wrap: the first draw collides with nothing. -/
theorem test_witness_DrawTwiceRestores :
    Config.glyphF.length ≤ 15 ∧ (State.reset.fb.draw .clip 1 3 Config.glyphF).2 = false ∧
    (State.reset.fb.draw .wrap 62 30 Config.glyphF).2 = false := by decide

theorem test_witness_KeySkips :
    ((regs [(2, 0x0F)]).getV 2).toNat < 16 ∧ 16 ≤ ((regs [(2, 0x10)]).getV 2).toNat := by decide

/-- An instruction that completes, and one that raises. -/
theorem test_witness_InstructionsChangeOnlyTheirParts :
    (∃ t, exec .cls State.reset = .next t) ∧
    exec .ret State.reset = .next { State.reset with engine := .halted .stackUnderflow } := ⟨⟨_, rfl⟩, rfl⟩

theorem test_witness_RegistersWrittenOnlyAsListed :
    (∃ t, exec (.ldVxMem 15) State.reset = .next t) ∧ (engineIs (.awaitingKey 15) 1).engine = .awaitingKey 15 ∧
    ∃ t, step (engineIs (.awaitingKey 15) 1) = .next t := ⟨⟨_, rfl⟩, rfl, _, rfl⟩

/-- The two edges of the stored range, and an address outside it. -/
theorem test_witness_MemoryFrame :
    (∃ t, exec (.ldMemVx 3) (indexed 0x300 []) = .next t) ∧ ¬ InRange 0x300 (bytesStored (.ldMemVx 3)) 0x2FF ∧
    ¬ InRange 0x300 (bytesStored (.ldMemVx 3)) 0x304 ∧ InRange 0x300 (bytesStored (.ldMemVx 3)) 0x303 ∧
    ¬ InRange 0 (bytesStored .cls) 0 := ⟨⟨_, rfl⟩, by unfold InRange; decide⟩

/-- An instruction that completes and one that raises, in a state that meets the invariant. -/
theorem test_witness_PcFinalisation :
    called.Inv ∧ called.engine = .running ∧ called.pc.toNat % 2 = 0 ∧ called.pc.toNat + 1 < 4096 ∧
    (∃ t, exec .ret called = .next t) ∧
    exec (.ldBVx 0) { called with i := 0xFFE } =
      .next { called with i := 0xFFE, engine := .halted .memoryOutOfBounds } :=
  ⟨test_witness_ReturnGoesBeyondCallSite_invariant.1, by decide, by decide, by decide, ⟨_, rfl⟩, rfl⟩

/-- An instruction that reads none of the three parts, the three that have a clause of their own, and a DXYN that
raises. -/
theorem test_witness_UnreadStateDoesNotMatter :
    (∃ t, exec (.addIVx 0) State.reset = .next t) ∧ (∀ x nn, Instr.addIVx 0 ≠ .rndVxByte x nn) ∧
    (∀ x, Instr.addIVx 0 ≠ .ldSTVx x) ∧ Instr.addIVx 0 ≠ .cls ∧ (∀ x y n, Instr.addIVx 0 ≠ .drwVxVyNibble x y n) ∧
    (∃ t, exec (.ldSTVx 0) State.reset = .next t) ∧ (∃ t, exec .cls State.reset = .next t) ∧
    (∃ t, exec (.drwVxVyNibble 0 1 5) (indexed 0xFFB []) = .next t) ∧
    exec (.drwVxVyNibble 0 1 5) (indexed 0xFFC []) =
      .next { indexed 0xFFC [] with engine := .halted .memoryOutOfBounds } :=
  ⟨⟨_, rfl⟩, by simp, by simp, by simp, by simp, ⟨_, rfl⟩, ⟨_, rfl⟩, ⟨_, rfl⟩, rfl⟩

/-- The invariant at a running state inside a call, and a Step from it. -/
theorem test_witness_StepKeepsInv : called.Inv ∧ ∃ t, step called = .next t :=
  ⟨test_witness_ReturnGoesBeyondCallSite_invariant.1, _, rfl⟩

theorem test_witness_TransactionsKeepInv :
    called.Inv ∧ (∃ t, transact (.load (List.replicate 1793 0)) called = .next (.err .programTooLarge, t)) :=
  ⟨test_witness_ReturnGoesBeyondCallSite_invariant.1, _, by simp only [transact, test_load_limit.2]; rfl⟩

/-- Writing a byte and writing the reset value back gives the same data as never writing. -/
theorem test_witness_CanonicalMemoriesAgree :
    Memory.wf ((Memory.write [] 0x300 7).write 0x300 0) = true ∧ Memory.wf [] = true ∧
    (Memory.write [] 0x300 7).write 0x300 0 = [] := by decide

theorem test_witness_ResetValues :
    (State.reset.hostSeed 5).seedCfg = some 5 ∧ State.reset.seedCfg = none ∧ 0x4F < 0x50 ∧ 0xFFF < 0x1000 := by decide

theorem test_witness_LoadPlacesProgram :
    0x200 + 2 * (List.replicate 1792 (0xABCD : Word)).length ≤ 0x1000 ∧
    (List.replicate 1792 (0xABCD : Word))[1791]? = some 0xABCD ∧ 0x200 + 2 * ([] : List Word).length ≤ 0x1000 :=
  ⟨by rw [List.length_replicate], by rw [List.getElem?_replicate, if_pos (by decide)], by decide⟩

/-- Between the failing load and the Step: a seed, a tick, a keypad input, another failing load. -/
theorem test_witness_FailedLoadNeedsReset :
    0x1000 < 0x200 + 2 * (List.replicate 1793 (0 : Word)).length ∧
    ∀ tr ∈ [Transaction.seed 1, .tickTimers, .keys none, .load (List.replicate 1793 0), .step],
      tr ≠ .reset ∧ ∀ q, tr = .load q → 0x1000 < 0x200 + 2 * q.length := by
  refine ⟨by rw [List.length_replicate]; decide, ?_⟩
  intro tr h
  simp only [List.mem_cons, List.not_mem_nil, or_false] at h
  rcases h with rfl | rfl | rfl | rfl | rfl <;> refine ⟨(nomatch ·), fun q hq => ?_⟩ <;>
    cases hq
  rw [List.length_replicate]
  decide

theorem test_witness_SeedIsSticky :
    (State.reset.hostSeed 5).seedCfg = some 5 ∧ 0x200 + 2 * [(0xC0FF : Word)].length ≤ 0x1000 := by decide

/-- The two engines may differ in everything but the inputs. -/
theorem test_witness_SeededRunsAreIdentical :
    0x200 + 2 * [(0xC0FF : Word)].length ≤ 0x1000 ∧ State.reset.draws = { regs [(3, 7)] with pc := 0x300 }.draws ∧
    State.reset.keyPort = { regs [(3, 7)] with pc := 0x300 }.keyPort := by decide

theorem test_witness_ObserversCheckTheirRanges :
    (State.reset.pixelAt 63 31).isOk = true ∧ ¬ (64 < 64 ∧ 31 < 32) ∧ ¬ (63 < 64 ∧ 32 < 32) ∧ 4095 < 4096 ∧
    4096 ≤ 4096 ∧ 15 < 16 ∧ 16 ≤ 16 := by decide

end Sys2Proof.Tests
end

/-! Which general registers an instruction, a Step in AwaitingKey and Reset may write (10_state.md R20–R22). -/

namespace Sys2Proof.Machine

/-! ## States with the registers of another -/

/-- An update of some other field leaves every register. -/
theorem OtherRegs.of_v_eq {s t : State} {rs : List Reg} (h : t.v = s.v) : OtherRegs rs s t :=
  fun r _ => congrArg (fun v : Vector Byte 16 => v.get r) h

/-- A flag write touches VF only. -/
theorem otherRegs_setFlag (s : State) (b : Byte) : OtherRegs [0xF] s (s.setFlag b) := otherRegs_setV s 0xF b

/-- A bulk load touches V0..VX only (R205). -/
theorem otherRegs_loadRegs (s : State) (x : Reg) (bytes : List Byte) :
    OtherRegs ((List.finRange 16).take (x.val + 1)) s (s.loadRegs x bytes) := by
  intro q hq
  have above : ¬ q ≤ x := fun hle => by
    have hval : q.val ≤ x.val := hle
    exact hq (List.mem_take_iff_getElem.2
      ⟨q.val, by rw [List.length_finRange]; omega, List.getElem_finRange _⟩)
  rw [State.getV_loadRegs, if_neg above]

/-- A Step that waits for key x writes V[x] at most (R266). -/
theorem otherRegs_keyWait (s : State) (x : Reg) : OtherRegs [x] s (s.keyWait x) := by
  unfold State.keyWait
  split
  · exact .of_v_eq rfl
  · exact otherRegs_setV s x _

/-! ## What an outcome writes -/

/-- Whatever next state the outcome gives, it keeps every register of `s` outside the list. -/
def WritesOnly (rs : List Reg) (s : State) (r : Result) : Prop := ∀ t, r = .next t → OtherRegs rs s t

theorem WritesOnly.next {rs : List Reg} {s t : State} (h : OtherRegs rs s t) : WritesOnly rs s (.next t) := by
  rintro _ ⟨⟩
  exact h

/-- An error writes no register (60_exceptions.md R303). -/
theorem writesOnly_raise (rs : List Reg) (k : ErrorKind) (s : State) : WritesOnly rs s (raise k s) :=
  .next (.of_v_eq rfl)

theorem writesOnly_writeReg (x : Reg) (b : Byte) (s : State) : WritesOnly [x] s (writeReg x b s) :=
  .next (otherRegs_setV s x b)

theorem writesOnly_writeFlagAndReg (x : Reg) (f b : Byte) (s : State) :
    WritesOnly [x, 0xF] s (writeFlagAndReg x f b s) :=
  .next (otherRegs_setFlagThenV s x f b)

theorem writesOnly_skipIf (cond : Bool) (s : State) : WritesOnly [] s (skipIf cond s) := .next (.of_v_eq rfl)

theorem writesOnly_keySkip (x : Reg) (held : Bool) (s : State) : WritesOnly [] s (keySkip x held s) := by
  obtain ⟨_, h⟩ | ⟨_, h⟩ := keySkip_cases x held s <;> exact h ▸ .next (.of_v_eq rfl)

theorem writesOnly_storeAtI (bytes : List Byte) (s : State) : WritesOnly [] s (storeAtI bytes s) := by
  obtain ⟨_, h⟩ | ⟨_, h⟩ := storeAtI_cases bytes s <;> exact h ▸ .next (.of_v_eq rfl)

theorem writesOnly_execRet (s : State) : WritesOnly [] s (execRet s) := by
  unfold execRet
  split
  · exact writesOnly_raise _ _ s
  · next hpop => exact .next ((sameBut_pop s hpop).otherRegs (by decide) _)

theorem writesOnly_execCallAddr (nnn : Addr) (s : State) : WritesOnly [] s (execCallAddr nnn s) := by
  unfold execCallAddr
  split
  · exact writesOnly_raise _ _ s
  · next hpush => exact .next ((sameBut_push s hpush).otherRegs (by decide) _)

theorem writesOnly_execDrwVxVyNibble (x y : Reg) (n : Nibble) (s : State) :
    WritesOnly [0xF] s (execDrwVxVyNibble x y n s) := by
  unfold execDrwVxVyNibble
  split
  · exact .next (otherRegs_setFlag s _)
  · exact writesOnly_raise _ _ s

theorem writesOnly_execLdVxMem (x : Reg) (s : State) :
    WritesOnly ((List.finRange 16).take (x.val + 1)) s (execLdVxMem x s) := by
  unfold execLdVxMem
  split
  · exact .next (otherRegs_loadRegs s x _)
  · exact writesOnly_raise _ _ s

/-- Every instruction writes at most the registers of its list (R21, R22). -/
theorem writesOnly_exec (i : Instr) (s : State) : WritesOnly (regsWritten i) s (exec i s) := by
  cases i with
  | ldVxByte | addVxByte | ldVxVy | orVxVy | andVxVy | xorVxVy | ldVxDT => exact writesOnly_writeReg _ _ s
  | rndVxByte x nn => exact .next (otherRegs_setV s x _)
  | addVxVy | subVxVy | shrVxVy | subnVxVy | shlVxVy => exact writesOnly_writeFlagAndReg _ _ _ s
  | drwVxVyNibble x y n => exact writesOnly_execDrwVxVyNibble x y n s
  | ldVxMem x => exact writesOnly_execLdVxMem x s
  | ret => exact writesOnly_execRet s
  | callAddr nnn => exact writesOnly_execCallAddr nnn s
  | seVxByte | sneVxByte | seVxVy | sneVxVy => exact writesOnly_skipIf _ s
  | skpVx | sknpVx => exact writesOnly_keySkip _ _ s
  | ldBVx | ldMemVx => exact writesOnly_storeAtI _ s
  | cls | jpAddr | jpV0Addr | ldIAddr | ldVxK | ldDTVx | ldSTVx | addIVx | ldFVx => exact .next (.of_v_eq rfl)

/-! ## The Step that waits for a key, and Reset -/

/-- A Step in AwaitingKey is the wait and nothing more. -/
theorem step_of_awaitingKey {s t : State} {x : Reg} (he : s.engine = .awaitingKey x) (h : step s = .next t) :
    t = (s.keyWait x).sampled := by
  obtain ⟨_, hk, _⟩ | ⟨y, hy, ht⟩ | ⟨hr, _⟩ | ⟨hr, _⟩ := step_cases h
  · simp [he] at hk
  · obtain rfl : x = y := by simpa [he] using hy
    exact ht
  · simp [he] at hr
  · simp [he] at hr

@[simp] theorem State.getV_hostReset (s : State) (r : Reg) : s.hostReset.getV r = 0 := by
  simp [State.hostReset, State.reset, State.getV, Vector.get_eq_getElem]

/-- Settles O38: by cases over the instructions, each arm through the operation it is built from. -/
theorem registersWrittenOnlyAsListed : Obligations.RegistersWrittenOnlyAsListed := by
  refine ⟨fun i s => writesOnly_exec i s, fun s t x he h => ?_, State.getV_hostReset⟩
  rw [step_of_awaitingKey he h]
  exact otherRegs_keyWait s x

end Sys2Proof.Machine

/-! The register skips 3XNN, 4XNN, 5XY0 and 9XY0 (41_control_flow.md R134–R138). -/

namespace Sys2Proof.Machine

/-- What a skip does, whatever the skipped word holds: PC goes on by the skip's distance and nothing else changes (R138). -/
theorem completes_of_exec_eq_skipIf {i : Instr} {s : State} {cond : Bool} (h : exec i s = skipIf cond s) :
    Completes i s fun t => t.pc = s.pc + skipDistance cond ∧ SameBut [.pc] s t :=
  ⟨s.advance (skipDistance cond), h, s.advance_pc _, sameBut_advance s _⟩

theorem skipDistance_beq (a b : Byte) : skipDistance (a == b) = if a.toNat = b.toNat then 4 else 2 :=
  if_congr (beq_iff_eq.trans BitVec.toNat_inj.symm) rfl rfl

theorem skipDistance_bne (a b : Byte) : skipDistance (a != b) = if a.toNat = b.toNat then 2 else 4 :=
  (if_congr (bne_iff_ne.trans (not_congr BitVec.toNat_inj.symm)) rfl rfl).trans (ite_not ..)

/-- Settles O16: each of the four is a skip on a test of two bytes, for equality or for difference. -/
theorem registerSkips : Obligations.RegisterSkips := by
  intro s x y nn
  simp only [← skipDistance_beq, ← skipDistance_bne]
  refine ⟨?seVxByte, ?sneVxByte, ?seVxVy, ?sneVxVy⟩ <;> exact completes_of_exec_eq_skipIf rfl

end Sys2Proof.Machine

/-! The register loads 6XNN and 8XY0, the addition 7XNN and the logic 8XY1–8XY3 (42_register_alu.md R165–R170). -/

namespace Sys2Proof.Machine

theorem Completes.imp {i : Instr} {s : State} {p q : State → Prop} (h : Completes i s p) (hpq : ∀ t, p t → q t) :
    Completes i s q := by
  obtain ⟨t, ht, hp⟩ := h
  exact ⟨t, ht, hpq t hp⟩

/-- What an instruction that writes one register and no flag does, VF being a register like the others (R165). -/
theorem completes_of_exec_eq_writeReg {i : Instr} {s : State} {x : Reg} {b : Byte} (h : exec i s = writeReg x b s) :
    Completes i s fun t => t.getV x = b ∧ OtherRegs [x] s t ∧ t.pc = s.pc + 2 ∧ SameBut [.v, .pc] s t :=
  ⟨(s.setV x b).advance 2, h, s.getV_setV_self x b, otherRegs_setV s x b, rfl,
    (sameBut_setV s x b).trans (sameBut_advance _ 2)⟩

/-- Settles O17: both are a write of V[X], of NN or of V[Y]. -/
theorem loadsCopyTheirOperand : Obligations.LoadsCopyTheirOperand :=
  fun _ _ _ _ => ⟨completes_of_exec_eq_writeReg rfl, completes_of_exec_eq_writeReg rfl⟩

/-- Settles O18: a write of V[X], and a sum of bytes is the sum of their values mod 256. -/
theorem addImmediateWraps : Obligations.AddImmediateWraps := by
  refine fun s x nn => (completes_of_exec_eq_writeReg rfl).imp fun t ⟨hv, frame⟩ => ⟨?_, frame⟩
  rw [hv, BitVec.toNat_add]

/-- Settles O19: each of the three is a write of V[X], whose bits the library's lemma about its operator gives. -/
theorem logicActsBitwise : Obligations.LogicActsBitwise := by
  intro s x y
  refine ⟨?or, ?and, ?xor⟩ <;>
    refine (completes_of_exec_eq_writeReg rfl).imp fun t ⟨hv, frame⟩ => ⟨fun k => ?_, frame⟩ <;>
    rw [hv]
  case or => exact BitVec.getLsbD_or
  case and => exact BitVec.getLsbD_and
  case xor => exact BitVec.getLsbD_xor

end Sys2Proof.Machine

/-! The clear 00E0 (44_display.md R232, R240). -/

namespace Sys2Proof.Machine

/-- A new frame buffer touches the frame buffer only. -/
theorem sameBut_withFb (s : State) (fb : FrameBuffer) : SameBut [.fb] s { s with fb } := by
  intro p hp
  cases p <;> simp [Part.same, State.getV] at *

/-- Settles O30: the cleared frame buffer has every pixel off, and the frame is that of its two updates in turn. -/
theorem clearTurnsEveryPixelOff : Obligations.ClearTurnsEveryPixelOff :=
  fun s => ⟨({ s with fb := s.fb.clear } : State).advance 2, rfl, s.fb.pixel_clear, rfl,
    (sameBut_withFb s _).trans (sameBut_advance _ 2)⟩

end Sys2Proof.Machine

/-! Decoding and encoding undo each other, and the words that decode to nothing (30_encoding.md R81–R88). -/

namespace Sys2Proof

/-! ## Decoding an encoded instruction -/

/-- Settles O2: each format gives its fields back, and on them the decoder selects the instruction. Only DXY0, which is not
well-formed, is lost. -/
theorem decodeEncodeAgree : Obligations.DecodeEncodeAgree := by
  intro i hwf
  cases i with
  | cls | ret => rfl
  | jpAddr | callAddr | ldIAddr | jpV0Addr => simp [encode, decode, fields_formatA]
  | seVxByte | sneVxByte | ldVxByte | addVxByte | rndVxByte => simp [encode, decode, fields_formatXK]
  | seVxVy | sneVxVy => simp [encode, decode, fields_formatXY]
  | ldVxVy | orVxVy | andVxVy | xorVxVy | addVxVy | subVxVy | shrVxVy | subnVxVy | shlVxVy =>
    simp [encode, decode, decodeType8, fields_formatXY]
  | drwVxVyNibble x y n =>
    have hn : n ≠ 0 := by simpa [Instr.wf] using hwf
    simpa [encode, decode, fields_formatXY] using hn
  | skpVx | sknpVx => simp [encode, decode, decodeTypeE, fields_formatXK]
  | ldVxDT | ldVxK | ldDTVx | ldSTVx | addIVx | ldFVx | ldBVx | ldMemVx | ldVxMem =>
    simp [encode, decode, decodeTypeF, fields_formatXK]

/-! ## Encoding a decoded word -/

/-- A word is its Type and NNN. -/
theorem formatA_fields (w : Word) : formatA (fields w).type (fields w).nnn = w := by
  apply BitVec.eq_of_getLsbD_eq
  intro i hi
  simp only [fields, getLsbD_formatA, BitVec.getLsbD_extractLsb']
  interval_cases i <;> simp

/-- A word is its Type, X and NN. -/
theorem formatXK_fields (w : Word) : formatXK (fields w).type (fields w).x.toFin (fields w).nn = w := by
  apply BitVec.eq_of_getLsbD_eq
  intro i hi
  simp only [fields, getLsbD_formatXK, regField, BitVec.ofFin_toFin, BitVec.getLsbD_extractLsb']
  interval_cases i <;> simp

/-- A word is its Type, X, Y and N. -/
theorem formatXY_fields (w : Word) :
    formatXY (fields w).type (fields w).x.toFin (fields w).y.toFin (fields w).n = w := by
  apply BitVec.eq_of_getLsbD_eq
  intro i hi
  simp only [fields, getLsbD_formatXY, regField, BitVec.ofFin_toFin, BitVec.getLsbD_extractLsb']
  interval_cases i <;> simp

theorem encode_of_decodeType0 {w : Word} {i : Instr} (h : decodeType0 w = .ok i) : encode i = w ∧ i.wf = true := by
  unfold decodeType0 at h
  split_ifs at h with hcls hret
  · cases h; exact ⟨hcls.symm, rfl⟩
  · cases h; exact ⟨hret.symm, rfl⟩

theorem encode_of_decodeType8 {x y : Reg} {n : Nibble} {i : Instr} (h : decodeType8 x y n = .ok i) :
    encode i = formatXY 0x8 x y n ∧ i.wf = true := by
  unfold decodeType8 at h
  split at h <;> cases h <;> next hn => exact ⟨congrArg (formatXY 0x8 x y) (BitVec.eq_of_toNat_eq hn.symm), rfl⟩

theorem encode_of_decodeTypeE {x : Reg} {nn : Byte} {i : Instr} (h : decodeTypeE x nn = .ok i) :
    encode i = formatXK 0xE x nn ∧ i.wf = true := by
  unfold decodeTypeE at h
  split_ifs at h <;> cases h <;> next hnn => exact ⟨congrArg (formatXK 0xE x) hnn.symm, rfl⟩

theorem encode_of_decodeTypeF {x : Reg} {nn : Byte} {i : Instr} (h : decodeTypeF x nn = .ok i) :
    encode i = formatXK 0xF x nn ∧ i.wf = true := by
  unfold decodeTypeF at h
  split_ifs at h <;> cases h <;> next hnn => exact ⟨congrArg (formatXK 0xF x) hnn.symm, rfl⟩

/-- A decoded word, by its Type nibble: the fields the instruction does not name are fixed by the sub-selector. -/
theorem encode_of_decode {w : Word} {i : Instr} (h : decode w = .ok i) : encode i = w ∧ i.wf = true := by
  have type_eq {k : Nat} (ht : (fields w).type.toNat = k) : (fields w).type = BitVec.ofNat 4 k := by simp [← ht]
  have hA := formatA_fields w
  have hXK := formatXK_fields w
  have hXY := formatXY_fields w
  unfold decode at h
  simp only at h
  split at h
  case h_1 => exact encode_of_decodeType0 h
  case h_2 ht | h_3 ht | h_11 ht | h_12 ht =>
    cases h
    rw [type_eq ht] at hA
    exact ⟨hA, rfl⟩
  case h_4 ht | h_5 ht | h_7 ht | h_8 ht | h_13 ht =>
    cases h
    rw [type_eq ht] at hXK
    exact ⟨hXK, rfl⟩
  case h_6 ht | h_10 ht =>
    split_ifs at h with hn
    cases h
    rw [type_eq ht, hn] at hXY
    exact ⟨hXY, rfl⟩
  case h_9 ht =>
    rw [type_eq ht] at hXY
    exact hXY ▸ encode_of_decodeType8 h
  case h_14 ht =>
    split_ifs at h with hn
    cases h
    rw [type_eq ht] at hXY
    exact ⟨hXY, by simpa [Instr.wf] using hn⟩
  case h_15 ht =>
    rw [type_eq ht] at hXK
    exact hXK ▸ encode_of_decodeTypeE h
  case h_16 =>
    have ht : (fields w).type.toNat = 0xF := by grind
    rw [type_eq ht] at hXK
    exact hXK ▸ encode_of_decodeTypeF h

section
open Laws.RowPattern

/-- The word of an instruction has the fixed bits of its own row (R87). -/
theorem encode_and_rowMask : ∀ i : Instr, encode i &&& rowMask i = rowMatch i
  | .cls => cls
  | .ret => ret
  | .jpAddr nnn => jpAddr nnn
  | .callAddr nnn => callAddr nnn
  | .seVxByte x nn => seVxByte x nn
  | .sneVxByte x nn => sneVxByte x nn
  | .seVxVy x y => seVxVy x y
  | .ldVxByte x nn => ldVxByte x nn
  | .addVxByte x nn => addVxByte x nn
  | .ldVxVy x y => ldVxVy x y
  | .orVxVy x y => orVxVy x y
  | .andVxVy x y => andVxVy x y
  | .xorVxVy x y => xorVxVy x y
  | .addVxVy x y => addVxVy x y
  | .subVxVy x y => subVxVy x y
  | .shrVxVy x y => shrVxVy x y
  | .subnVxVy x y => subnVxVy x y
  | .shlVxVy x y => shlVxVy x y
  | .sneVxVy x y => sneVxVy x y
  | .ldIAddr nnn => ldIAddr nnn
  | .jpV0Addr nnn => jpV0Addr nnn
  | .rndVxByte x nn => rndVxByte x nn
  | .drwVxVyNibble x y n => drwVxVyNibble x y n
  | .skpVx x => skpVx x
  | .sknpVx x => sknpVx x
  | .ldVxDT x => ldVxDT x
  | .ldVxK x => ldVxK x
  | .ldDTVx x => ldDTVx x
  | .ldSTVx x => ldSTVx x
  | .addIVx x => addIVx x
  | .ldFVx x => ldFVx x
  | .ldBVx x => ldBVx x
  | .ldMemVx x => ldMemVx x
  | .ldVxMem x => ldVxMem x

end

/-- Settles O3: the word is its own encoding by its fields, and every encoding matches its row. -/
theorem decodedWordIsItsEncoding : Obligations.DecodedWordIsItsEncoding := by
  intro w i h
  obtain ⟨henc, hwf⟩ := encode_of_decode h
  exact ⟨henc, hwf, henc ▸ encode_and_rowMask i⟩

/-! ## Illegal words -/

theorem fields_type_toNat (w : Word) : (fields w).type.toNat = w.toNat / 0x1000 := by
  have := w.isLt
  simp only [fields, BitVec.extractLsb'_toNat, Nat.shiftRight_eq_div_pow]
  omega

theorem fields_n_toNat (w : Word) : (fields w).n.toNat = w.toNat % 0x10 := by
  simp [fields]

theorem fields_nn_toNat (w : Word) : (fields w).nn.toNat = w.toNat % 0x100 := by
  simp [fields]

theorem decodeType8_eq_error {x y : Reg} {n : Nibble} :
    (∃ why, decodeType8 x y n = .error why) ↔ n.toNat ∈ [0x8, 0x9, 0xA, 0xB, 0xC, 0xD, 0xF] := by
  unfold decodeType8
  split
  case h_10 =>
    have := n.isLt
    have : n.toNat ∈ [0x8, 0x9, 0xA, 0xB, 0xC, 0xD, 0xF] := by
      simp only [List.mem_cons, List.not_mem_nil, or_false]
      grind
    exact ⟨fun _ => this, fun _ => ⟨_, rfl⟩⟩
  all_goals simp [*]

theorem decodeTypeE_eq_error {x : Reg} {nn : Byte} :
    (∃ why, decodeTypeE x nn = .error why) ↔ nn.toNat ∉ [0x9E, 0xA1] := by
  unfold decodeTypeE
  split_ifs <;> simp_all [BitVec.toNat_eq]

theorem decodeTypeF_eq_error {x : Reg} {nn : Byte} :
    (∃ why, decodeTypeF x nn = .error why) ↔
      nn.toNat ∉ [0x07, 0x0A, 0x15, 0x18, 0x1E, 0x29, 0x33, 0x55, 0x65] := by
  unfold decodeTypeF
  split_ifs <;> simp_all [BitVec.toNat_eq]

theorem decodeType0_eq_error {w : Word} :
    (∃ why, decodeType0 w = .error why) ↔ w.toNat ≠ 0x00E0 ∧ w.toNat ≠ 0x00EE := by
  unfold decodeType0
  split_ifs <;> simp_all [BitVec.toNat_eq]

open Machine in
/-- The words that decode to nothing are those of R88's list, Type by Type. -/
theorem decode_eq_error {w : Word} : (∃ why, decode w = .error why) ↔ IllegalWord w := by
  have htype := fields_type_toNat w
  unfold IllegalWord decode
  rw [← htype, ← fields_n_toNat, ← fields_nn_toNat]
  simp only
  split
  case h_2 ht | h_3 ht | h_4 ht | h_5 ht | h_7 ht | h_8 ht | h_11 ht | h_12 ht | h_13 ht => simp [ht]
  case h_1 ht => simp [ht, decodeType0_eq_error]
  case h_6 ht | h_10 ht | h_14 ht => split_ifs with hn <;> simpa [ht, BitVec.toNat_eq] using hn
  case h_9 ht => simpa [ht] using decodeType8_eq_error
  case h_15 ht => simpa [ht] using decodeTypeE_eq_error
  case h_16 =>
    have := (fields w).type.isLt
    have ht : (fields w).type.toNat = 0xF := by grind
    simpa [ht] using decodeTypeF_eq_error

/-- Settles O1: each word is decoded by evaluation. -/
theorem specWordsDecode : Obligations.SpecWordsDecode := by
  unfold Obligations.SpecWordsDecode
  decide

end Sys2Proof

/-! What an instruction can end in: its frame, its errors, and the memory it leaves (40_dispatch.md section 3,
20_memory.md section 6). -/

namespace Sys2Proof.Machine

/-! ## The instructions with a check, in closed form -/

/-- A return either pops and goes 2 beyond the saved site, or raises (R130). -/
theorem execRet_cases (s : State) :
    (∃ (h : 0 < s.sp.val) (h' : s.sp.val - 1 < 17), execRet s =
      .next (({ s with sp := ⟨s.sp.val - 1, h'⟩ } : State).jump (s.stack[s.sp.val - 1]'(by omega) + 2))) ∨
    (s.sp.val = 0 ∧ execRet s = .next (s.halt .stackUnderflow)) := by
  unfold execRet
  split
  · next hpop => exact .inr ⟨State.pop_eq_none.1 hpop, rfl⟩
  · next hpop =>
    obtain ⟨h, h', rfl, rfl⟩ := (State.pop_eq_some _).1 hpop
    exact .inl ⟨h, h', rfl⟩

/-- A call either saves its own address and jumps, or raises (R132). -/
theorem execCallAddr_cases (nnn : Addr) (s : State) :
    (∃ (h : s.sp.val < 16) (h' : s.sp.val + 1 < 17), execCallAddr nnn s =
      .next (({ s with stack := s.stack.set s.sp.val s.pc, sp := ⟨s.sp.val + 1, h'⟩ } : State).jump
        (addrOperand nnn))) ∨
    (s.sp.val = 16 ∧ execCallAddr nnn s = .next (s.halt .stackOverflow)) := by
  unfold execCallAddr
  split
  · next hpush => exact .inr ⟨(State.push_eq_none _).1 hpush, rfl⟩
  · next hpush =>
    obtain ⟨h, h', rfl⟩ := (State.push_eq_some _).1 hpush
    exact .inl ⟨h, h', rfl⟩

/-- A draw either draws the whole sprite and writes VF, or raises (R241). -/
theorem execDrwVxVyNibble_cases (x y : Reg) (n : Nibble) (s : State) :
    (s.i.toNat + n.toNat ≤ 4096 ∧ execDrwVxVyNibble x y n s =
      .next ((({ s with fb := (s.drawing x y n).1 } : State).setFlag (flag (s.drawing x y n).2)).advance 2)) ∨
    (4096 < s.i.toNat + n.toNat ∧ execDrwVxVyNibble x y n s = .next (s.halt .memoryOutOfBounds)) := by
  unfold execDrwVxVyNibble
  by_cases h : s.i.toNat + n.toNat ≤ 4096
  · exact .inl ⟨h, by simp [State.indexAddr, h]⟩
  · exact .inr ⟨by omega, by simp [State.indexAddr, h, raise]⟩

/-- A bulk load either loads V0..VX, or raises (R205). -/
theorem execLdVxMem_cases (x : Reg) (s : State) :
    (s.i.toNat + x.val + 1 ≤ 4096 ∧ execLdVxMem x s =
      .next ((s.loadRegs x (s.mem.readBytes s.i.toNat (x.val + 1))).advance 2)) ∨
    (4096 < s.i.toNat + x.val + 1 ∧ execLdVxMem x s = .next (s.halt .memoryOutOfBounds)) := by
  unfold execLdVxMem
  by_cases h : s.i.toNat + (x.val + 1) ≤ 4096
  · exact .inl ⟨by omega, by simp [State.indexAddr, regCount, h]⟩
  · exact .inr ⟨by omega, by simp [State.indexAddr, regCount, h, raise]⟩

/-! ## Frames of the updates that are record updates -/

theorem sameBut_withMem (s : State) (mem : Memory) : SameBut [.mem] s { s with mem } := by
  intro p hp
  cases p <;> simp [Part.same, State.getV] at *

theorem sameBut_withDt (s : State) (dt : Byte) : SameBut [.dt] s { s with dt } := by
  intro p hp
  cases p <;> simp [Part.same, State.getV] at *

theorem sameBut_withSt (s : State) (st : Byte) : SameBut [.st] s { s with st } := by
  intro p hp
  cases p <;> simp [Part.same, State.getV] at *

theorem sameBut_withRng (s : State) (rng : RngState) : SameBut [.rng] s { s with rng } := by
  intro p hp
  cases p <;> simp [Part.same, State.getV] at *

theorem sameBut_withEngine (s : State) (engine : Engine) : SameBut [.engine] s { s with engine } := by
  intro p hp
  cases p <;> simp [Part.same, State.getV] at *

theorem sameBut_withSp (s : State) (sp : Fin 17) : SameBut [.sp] s { s with sp } := by
  intro p hp
  cases p <;> simp [Part.same, State.getV] at *

theorem sameBut_withStackSp (s : State) (stack : Vector Word 16) (sp : Fin 17) :
    SameBut [.stack, .sp] s { s with stack, sp } := by
  intro p hp
  cases p <;> simp [Part.same, State.getV] at *

/-! ## Completion within a frame, or an error -/

/-- The outcome is a next state: one that keeps every part outside the list, or an error of a Step, which changes the
engine state alone (R303). -/
def EndsWithin (ps : List Part) (s : State) (r : Result) : Prop :=
  ∃ t, r = .next t ∧ (SameBut ps s t ∨ ∃ k, k ≠ .programTooLarge ∧ t = s.halt k)

theorem EndsWithin.next {ps : List Part} {s t : State} (h : SameBut ps s t) : EndsWithin ps s (.next t) :=
  ⟨t, rfl, .inl h⟩

theorem EndsWithin.halt {ps : List Part} {s : State} {k : ErrorKind} (hk : k ≠ .programTooLarge) :
    EndsWithin ps s (.next (s.halt k)) :=
  ⟨_, rfl, .inr ⟨k, hk, rfl⟩⟩

theorem endsWithin_writeReg (x : Reg) (b : Byte) (s : State) : EndsWithin [.v, .pc] s (writeReg x b s) :=
  .next ((sameBut_setV s x b).trans (sameBut_advance _ 2))

theorem endsWithin_writeFlagAndReg (x : Reg) (f b : Byte) (s : State) :
    EndsWithin [.v, .pc] s (writeFlagAndReg x f b s) :=
  .next ((sameBut_setFlagThenV s x f b).trans (sameBut_advance _ 2))

theorem endsWithin_skipIf (cond : Bool) (s : State) : EndsWithin [.pc] s (skipIf cond s) :=
  .next (sameBut_advance s _)

theorem endsWithin_keySkip (x : Reg) (held : Bool) (s : State) : EndsWithin [.pc] s (keySkip x held s) := by
  obtain ⟨_, h⟩ | ⟨_, h⟩ := keySkip_cases x held s
  · exact h ▸ .next (sameBut_advance s _)
  · exact h ▸ .halt (by decide)

theorem endsWithin_storeAtI (bytes : List Byte) (s : State) : EndsWithin [.mem, .pc] s (storeAtI bytes s) := by
  obtain ⟨_, h⟩ | ⟨_, h⟩ := storeAtI_cases bytes s
  · exact h ▸ .next ((sameBut_withMem s _).trans (sameBut_advance _ 2))
  · exact h ▸ .halt (by decide)

theorem endsWithin_execRet (s : State) : EndsWithin [.sp, .pc] s (execRet s) := by
  obtain ⟨_, _, h⟩ | ⟨_, h⟩ := execRet_cases s
  · exact h ▸ .next ((sameBut_withSp s _).trans (sameBut_jump _ _))
  · exact h ▸ .halt (by decide)

theorem endsWithin_execCallAddr (nnn : Addr) (s : State) : EndsWithin [.stack, .sp, .pc] s (execCallAddr nnn s) := by
  obtain ⟨_, _, h⟩ | ⟨_, h⟩ := execCallAddr_cases nnn s
  · exact h ▸ .next ((sameBut_withStackSp s _ _).trans (sameBut_jump _ _))
  · exact h ▸ .halt (by decide)

theorem endsWithin_execDrwVxVyNibble (x y : Reg) (n : Nibble) (s : State) :
    EndsWithin [.fb, .v, .pc] s (execDrwVxVyNibble x y n s) := by
  obtain ⟨_, h⟩ | ⟨_, h⟩ := execDrwVxVyNibble_cases x y n s
  · exact h ▸ .next (((sameBut_withFb s _).trans (sameBut_setV _ flagReg _)).trans (sameBut_advance _ 2))
  · exact h ▸ .halt (by decide)

theorem endsWithin_execLdVxMem (x : Reg) (s : State) : EndsWithin [.v, .pc] s (execLdVxMem x s) := by
  obtain ⟨_, h⟩ | ⟨_, h⟩ := execLdVxMem_cases x s
  · exact h ▸ .next ((sameBut_loadRegs s x _).trans (sameBut_advance _ 2))
  · exact h ▸ .halt (by decide)

/-- Every instruction answers a next state, within the frame of its list unless it raises an error. -/
theorem exec_endsWithin (i : Instr) (s : State) : EndsWithin (partsChanged i) s (exec i s) := by
  cases i with
  | cls => exact .next ((sameBut_withFb s _).trans (sameBut_advance _ 2))
  | ret => exact endsWithin_execRet s
  | jpAddr | jpV0Addr => exact .next (sameBut_jump s _)
  | callAddr nnn => exact endsWithin_execCallAddr nnn s
  | seVxByte | sneVxByte | seVxVy | sneVxVy => exact endsWithin_skipIf _ s
  | ldVxByte | addVxByte | ldVxVy | orVxVy | andVxVy | xorVxVy | ldVxDT => exact endsWithin_writeReg _ _ s
  | addVxVy | subVxVy | shrVxVy | subnVxVy | shlVxVy => exact endsWithin_writeFlagAndReg _ _ _ s
  | ldIAddr | addIVx | ldFVx => exact .next ((sameBut_setI s _).trans (sameBut_advance _ 2))
  | rndVxByte x nn =>
    exact .next ((((sameBut_withRng s _).trans (sameBut_setV _ x _)).trans (sameBut_advance _ 2)).mono (by simp [partsChanged]))
  | drwVxVyNibble x y n => exact endsWithin_execDrwVxVyNibble x y n s
  | skpVx | sknpVx => exact endsWithin_keySkip _ _ s
  | ldVxK => exact .next (sameBut_withEngine s _)
  | ldDTVx => exact .next ((sameBut_withDt s _).trans (sameBut_advance _ 2))
  | ldSTVx => exact .next ((sameBut_withSt s _).trans (sameBut_advance _ 2))
  | ldBVx | ldMemVx => exact endsWithin_storeAtI _ s
  | ldVxMem x => exact endsWithin_execLdVxMem x s

theorem exec_completes (i : Instr) (s : State) : ∃ t, exec i s = .next t := by
  obtain ⟨t, h, _⟩ := exec_endsWithin i s
  exact ⟨t, h⟩

theorem Completes.post {i : Instr} {s t : State} {p : State → Prop} (hp : Completes i s p) (h : exec i s = .next t) :
    p t := by
  obtain ⟨u, hu, hpost⟩ := hp
  obtain rfl := Host.Outcome.next.inj (h.symm.trans hu)
  exact hpost

/-- Everything an instruction can answer: a state within its frame, or an error of a Step. -/
theorem exec_cases {i : Instr} {s t : State} (h : exec i s = .next t) :
    SameBut (partsChanged i) s t ∨ ∃ k, k ≠ .programTooLarge ∧ t = s.halt k :=
  Completes.post (exec_endsWithin i s) h

/-- Settles O37: every handler ends within its list or in an error, by cases over the instructions. -/
theorem instructionsChangeOnlyTheirParts : Obligations.InstructionsChangeOnlyTheirParts :=
  fun _ _ _ h => (exec_cases h).imp_right fun ⟨k, _, ht⟩ => ⟨k, ht⟩

/-! ## Memory after an instruction -/

/-- Memory is left alone, or `n` bytes are written from the old I up, all of them inside memory. -/
def StoredAtI (n : Nat) (s t : State) : Prop :=
  t.mem = s.mem ∨ ∃ bytes : List Byte, bytes.length = n ∧ s.i.toNat + bytes.length ≤ 4096 ∧
    t.mem = s.mem.writeBytes s.i.toNat bytes

theorem completes_storedAtI_of_exec_eq {i : Instr} {s : State} {bytes : List Byte} (h : exec i s = storeAtI bytes s) :
    Completes i s (StoredAtI bytes.length s) := by
  obtain ⟨hb, hs⟩ | ⟨_, hs⟩ := storeAtI_cases bytes s
  · exact ⟨_, h.trans hs, .inr ⟨bytes, rfl, hb, rfl⟩⟩
  · exact ⟨_, h.trans hs, .inl rfl⟩

/-- Only FX33 and FX55 write memory (R60, R67). -/
theorem completes_storedAtI (i : Instr) (s : State) : Completes i s (StoredAtI (bytesStored i) s) := by
  cases i with
  | ldBVx x => exact completes_storedAtI_of_exec_eq (bytes := bcdDigits (s.getV x)) rfl
  | ldMemVx x =>
    have h := completes_storedAtI_of_exec_eq (i := .ldMemVx x) (s := s) rfl
    rwa [s.regBytes_length] at h
  | ret => obtain ⟨_, _, h⟩ | ⟨_, h⟩ := execRet_cases s <;> exact ⟨_, h, .inl rfl⟩
  | callAddr nnn => obtain ⟨_, _, h⟩ | ⟨_, h⟩ := execCallAddr_cases nnn s <;> exact ⟨_, h, .inl rfl⟩
  | skpVx x => obtain ⟨_, h⟩ | ⟨_, h⟩ := keySkip_cases x true s <;> exact ⟨_, h, .inl rfl⟩
  | sknpVx x => obtain ⟨_, h⟩ | ⟨_, h⟩ := keySkip_cases x false s <;> exact ⟨_, h, .inl rfl⟩
  | drwVxVyNibble x y n => obtain ⟨_, h⟩ | ⟨_, h⟩ := execDrwVxVyNibble_cases x y n s <;> exact ⟨_, h, .inl rfl⟩
  | ldVxMem x => obtain ⟨_, h⟩ | ⟨_, h⟩ := execLdVxMem_cases x s <;> exact ⟨_, h, .inl rfl⟩
  | _ => exact ⟨_, rfl, .inl rfl⟩

/-- Settles O39: the only writes are of the stored bytes, and a bulk write is seen in its range only. -/
theorem memoryFrame : Obligations.MemoryFrame := by
  intro i s t h a ha
  obtain hmem | ⟨bytes, hlen, _, hmem⟩ := (completes_storedAtI i s).post h
  · rw [hmem]
  · rw [hmem, Memory.read_writeBytes, hlen]
    exact if_neg ha

/-- An instruction keeps the canonical form of memory. -/
theorem wf_mem_of_exec {i : Instr} {s t : State} (h : exec i s = .next t) (hwf : s.mem.wf = true) :
    t.mem.wf = true := by
  obtain hmem | ⟨bytes, _, hb, hmem⟩ := (completes_storedAtI i s).post h
  · exact hmem ▸ hwf
  · exact hmem ▸ Memory.wf_writeBytes hwf hb

end Sys2Proof.Machine

/-! The Step in each engine state, and the transitions of the engine (40_dispatch.md section 3, 10_state.md section 6). -/

namespace Sys2Proof.Machine

variable {s t : State}

/-! ## The Step in Running -/

theorem step_eq_of_fetchInstr_error {k : ErrorKind} (he : s.engine = .running) (hf : s.fetchInstr = .error k) :
    step s = .next (s.halt k).sampled := by
  simp only [step, he, hf, raise, finishStep]

theorem step_eq_of_exec {i : Instr} (he : s.engine = .running) (hf : s.fetchInstr = .ok i) (h : exec i s = .next t) :
    step s = .next t.sampled := by
  simp only [step, he, hf, h, finishStep]

/-- A Step in Running takes the error of the fetch or the dispatch, or runs the instruction fetched. -/
theorem step_of_running (he : s.engine = .running) (h : step s = .next t) :
    (∃ k, s.fetchInstr = .error k ∧ t = (s.halt k).sampled) ∨
    ∃ i u, s.fetchInstr = .ok i ∧ exec i s = .next u ∧ t = u.sampled := by
  obtain ⟨_, hk, _⟩ | ⟨_, hx, _⟩ | ⟨_, hf⟩ | ⟨_, hi⟩ := step_cases h
  · simp [he] at hk
  · simp [he] at hx
  · exact .inl hf
  · exact .inr hi

/-- Settles O4: R88's list is where the decoder refuses, and there the dispatch raises. -/
theorem illegalWordsRaiseInvalidOpcode : Obligations.IllegalWordsRaiseInvalidOpcode :=
  ⟨fun _ => decode_eq_error, fun _ he heven hlast hword => step_eq_of_fetchInstr_error he
    (State.fetchInstr_eq_error.2 (.inr ⟨⟨heven, hlast⟩, rfl, decode_eq_error.2 hword⟩))⟩

/-- Settles O5: the fetch succeeds, and every instruction answers a next state. -/
theorem stepRunsDecodedInstruction : Obligations.StepRunsDecodedInstruction := by
  intro s i he heven hlast hdecode
  have hf : s.fetchInstr = .ok i := State.fetchInstr_eq_ok.2 ⟨⟨heven, hlast⟩, hdecode⟩
  exact ⟨fun t ht => step_eq_of_exec he hf ht, exec_completes i s⟩

/-- Settles O6: the fetch check fails before anything else is looked at. -/
theorem badFetchRaisesMemoryOutOfBounds : Obligations.BadFetchRaisesMemoryOutOfBounds :=
  fun _ he hbad => step_eq_of_fetchInstr_error he (State.fetchInstr_eq_error.2 (.inl ⟨by omega, rfl⟩))

/-! ## The Step in the other engine states -/

theorem step_eq_of_halted {k : ErrorKind} (he : s.engine = .halted k) : step s = .next s := by
  simp only [step, he]

theorem step_eq_of_unreset (he : s.engine = .unreset) : step s = .refused .unreset := by
  simp only [step, he]

theorem step_eq_of_awaitingKey {x : Reg} (he : s.engine = .awaitingKey x) : step s = .next (s.keyWait x).sampled := by
  simp only [step, he, finishStep]

theorem State.keyWait_of_no_key (x : Reg) (hk : s.keys = 0) : s.keyWait x = s := by
  simp only [State.keyWait, firstKey_eq_none.2 hk]

theorem State.keyWait_of_firstKey (x : Reg) {k : Reg} (hk : firstKey s.keys = some k) :
    s.keyWait x = { (s.setV x (BitVec.ofNat 8 k.val)).advance 2 with engine := .running } := by
  simp only [State.keyWait, hk]

theorem exists_firstKey {keys : Word} (h : keys ≠ 0) : ∃ k, firstKey keys = some k :=
  Option.ne_none_iff_exists'.1 (mt firstKey_eq_none.1 h)

theorem State.keyWait_engine (x : Reg) : (s.keyWait x).engine = if s.keys = 0 then s.engine else .running := by
  split
  · next h => rw [State.keyWait_of_no_key x h]
  · next h =>
    obtain ⟨k, hk⟩ := exists_firstKey h
    rw [State.keyWait_of_firstKey x hk]

/-- Settles O9: Unreset is the one engine state that refuses, and no handler stops. -/
theorem stepCompletesUnlessUnreset : Obligations.StepCompletesUnlessUnreset := by
  refine fun s => ⟨step_eq_of_unreset, fun hne => ?_⟩
  cases he : s.engine with
  | unreset => exact absurd he hne
  | halted k => exact ⟨_, step_eq_of_halted he⟩
  | awaitingKey x => exact ⟨_, step_eq_of_awaitingKey he⟩
  | running =>
    cases hf : s.fetchInstr with
    | error k => exact ⟨_, step_eq_of_fetchInstr_error he hf⟩
    | ok i =>
      obtain ⟨t, ht⟩ := exec_completes i s
      exact ⟨_, step_eq_of_exec he hf ht⟩

/-! ## The engine state after an instruction -/

theorem engine_notMem_partsChanged {i : Instr} (hi : ∀ x, i ≠ .ldVxK x) : Part.engine ∉ partsChanged i := by
  cases i <;> simp [partsChanged] at hi ⊢

/-- The engine is left alone, or waits after FX0A, or takes an error of a Step. -/
theorem exec_engine {i : Instr} (h : exec i s = .next t) :
    (t.engine = s.engine ∧ ∀ x, i ≠ .ldVxK x) ∨ (∃ x, i = .ldVxK x ∧ t = { s with engine := .awaitingKey x }) ∨
    ∃ k, k ≠ .programTooLarge ∧ t = s.halt k := by
  by_cases hi : ∃ x, i = .ldVxK x
  · obtain ⟨x, rfl⟩ := hi
    exact .inr (.inl ⟨x, rfl, (Host.Outcome.next.inj h).symm⟩)
  · have hi : ∀ x, i ≠ .ldVxK x := fun x hx => hi ⟨x, hx⟩
    obtain frame | herr := exec_cases h
    · exact .inl ⟨frame .engine (engine_notMem_partsChanged hi), hi⟩
    · exact .inr (.inr herr)

/-- An instruction that halts a running engine changes nothing else. -/
theorem eq_halt_of_exec {i : Instr} {k : ErrorKind} (he : s.engine = .running) (h : exec i s = .next t)
    (hk : t.engine = .halted k) : t = s.halt k := by
  obtain ⟨hsame, _⟩ | ⟨x, _, rfl⟩ | ⟨k', _, rfl⟩ := exec_engine h
  · simp [hsame, he] at hk
  · simp at hk
  · obtain rfl : k' = k := by simpa using hk
    rfl

/-! ## The transitions -/

theorem stepStatus_of_halted {k : ErrorKind} (he : s.engine = .halted k) : stepStatus s t = .halted := by
  simp only [stepStatus, he]

theorem stepStatus_ok (hs : ∀ k, s.engine ≠ .halted k) (ht : ∀ k, t.engine ≠ .halted k) : stepStatus s t = .ok := by
  unfold stepStatus
  split
  · next hk => exact absurd hk (hs _)
  · split
    · next hk => exact absurd hk (ht _)
    · rfl

theorem stepStatus_err {k : ErrorKind} (hs : ∀ k, s.engine ≠ .halted k) (ht : t.engine = .halted k) :
    stepStatus s t = .err k := by
  unfold stepStatus
  split
  · next hk => exact absurd hk (hs _)
  · simp only [ht]

theorem transact_step_eq_next {status : Status} :
    transact .step s = .next (status, t) ↔ step s = .next t ∧ status = stepStatus s t := by
  simp only [transact]
  cases step s with
  | next u => simp only [Host.Outcome.next.injEq, Prod.mk.injEq]; grind
  | fault f => cases f
  | refused r => simp

theorem transact_step (h : step s = .next t) : transact .step s = .next (stepStatus s t, t) :=
  transact_step_eq_next.2 ⟨h, rfl⟩

/-- Settles O7: the error comes from the fetch, the dispatch or the handler, and each changes the engine state alone. -/
theorem failedStepChangesOnlyEngine : Obligations.FailedStepChangesOnlyEngine := by
  intro s t k he hstep hk
  refine ⟨?_, stepStatus_err (by simp [he]) hk⟩
  obtain ⟨k', _, rfl⟩ | ⟨i, u, _, hu, rfl⟩ := step_of_running he hstep
  · obtain rfl : k' = k := by simpa using hk
    rfl
  · obtain rfl := eq_halt_of_exec he hu hk
    rfl

/-- Settles O8: a Step in Halted is the identity, and Seed, TickTimers and the keypad port leave the engine alone. -/
theorem haltedIsTerminalForStep : Obligations.HaltedIsTerminalForStep := by
  intro s k he
  have hstep := transact_step (step_eq_of_halted he)
  rw [stepStatus_of_halted he] at hstep
  refine ⟨hstep, fun tr status u h => ?_⟩
  cases tr with
  | reset => exact .inr (.inl rfl)
  | load p => exact .inr (.inr ⟨p, rfl⟩)
  | step => cases hstep.symm.trans h; exact .inl he
  | seed | tickTimers | keys => cases h; exact .inl he

/-- Settles O10: the wait does nothing without a key, and otherwise writes the first key and moves on. -/
theorem awaitingStepTakesLowestKey : Obligations.AwaitingStepTakesLowestKey := by
  intro s x he
  have hs : ∀ k, s.engine ≠ .halted k := by simp [he]
  have hstep := transact_step (step_eq_of_awaitingKey he)
  refine ⟨fun hnone => ?_, fun hsome => ?_⟩
  · rw [State.keyWait_of_no_key x hnone, stepStatus_ok hs (by simpa using hs)] at hstep
    exact hstep
  · obtain ⟨k, hk⟩ := exists_firstKey hsome
    obtain ⟨hheld, hlowest⟩ := firstKey_eq_some.1 hk
    rw [State.keyWait_of_firstKey x hk, stepStatus_ok hs (by simp)] at hstep
    refine ⟨_, k, hstep, hheld, hlowest, ?value, otherRegs_setV s x _, rfl, rfl, ?frame⟩
    case value => exact (congrArg BitVec.toNat (s.getV_setV_self x _)).trans (by rw [BitVec.toNat_ofNat]; omega)
    case frame =>
      exact (((sameBut_setV s x _).trans (sameBut_advance _ 2)).trans (sameBut_withEngine _ _)).trans
        (sameBut_sampled _)

theorem fetchInstr_error_ne_programTooLarge {k : ErrorKind} (h : s.fetchInstr = .error k) : k ≠ .programTooLarge := by
  obtain ⟨_, rfl⟩ | ⟨_, rfl, _⟩ := State.fetchInstr_eq_error.1 h <;> decide

/-- A Step from Running that fetched no FX0A goes on running, or halts with an error of a Step. -/
theorem engine_of_step_of_running (he : s.engine = .running) (h : step s = .next t)
    (hi : ∀ x, s.fetchInstr ≠ .ok (.ldVxK x)) :
    t.engine = .running ∨ ∃ k, t.engine = .halted k ∧ k ≠ .programTooLarge := by
  obtain ⟨k, hf, rfl⟩ | ⟨i, u, hf, hu, rfl⟩ := step_of_running he h
  · exact .inr ⟨k, rfl, fetchInstr_error_ne_programTooLarge hf⟩
  · obtain ⟨hsame, _⟩ | ⟨x, rfl, _⟩ | ⟨k, hk, rfl⟩ := exec_engine hu
    · exact .inl (hsame.trans he)
    · exact absurd hf (hi x)
    · exact .inr ⟨k, rfl, hk⟩

/-- Settles O11: each transaction, and a Step in each engine state, by its own lemma. -/
theorem engineTransitions : Obligations.EngineTransitions := by
  intro tr s u status h
  cases tr with
  | reset | seed | tickTimers | keys => cases h; exact ⟨rfl, rfl⟩
  | load p =>
    cases h
    by_cases hp : 0x200 + 2 * p.length ≤ 4096
    · simp [State.hostLoad, hp, State.hostReset, State.reset]
    · simp [State.hostLoad, hp, State.unspecified]
  | step =>
    obtain ⟨hstep, rfl⟩ := transact_step_eq_next.1 h
    cases he : s.engine with
    | unreset => cases (step_eq_of_unreset he).symm.trans hstep
    | halted k =>
      cases (step_eq_of_halted he).symm.trans hstep
      exact ⟨he, stepStatus_of_halted he⟩
    | awaitingKey x =>
      have hs : ∀ k, s.engine ≠ .halted k := by simp [he]
      cases (step_eq_of_awaitingKey he).symm.trans hstep
      have hu : (s.keyWait x).sampled.engine = if s.keys = 0 then .awaitingKey x else .running := by
        rw [State.sampled_engine, State.keyWait_engine, he]
      exact ⟨hu, stepStatus_ok hs (by rw [hu]; split <;> simp)⟩
    | running =>
      have hs : ∀ k, s.engine ≠ .halted k := by simp [he]
      refine ⟨fun x hf => ?_, fun hi => ?_⟩
      · cases (step_eq_of_exec he hf (t := { s with engine := .awaitingKey x }) rfl).symm.trans hstep
        exact ⟨rfl, stepStatus_ok hs (by simp)⟩
      · obtain hu | ⟨k, hu, hk⟩ := engine_of_step_of_running he hstep hi
        · exact .inl ⟨hu, stepStatus_ok hs (by simp [hu])⟩
        · exact .inr ⟨k, hu, hk, stepStatus_err hs hu⟩

end Sys2Proof.Machine

/-! The final PC of every instruction, and the invariant over Steps and transactions (40_dispatch.md R106, 10_state.md
section 3). -/

namespace Sys2Proof.Machine

variable {s t : State}

/-! ## Program counters as numbers -/

/-- NNN is extended with zeros. -/
@[simp] theorem addrOperand_toNat (nnn : Addr) : (addrOperand nnn).toNat = nnn.toNat := by
  have := nnn.isLt
  simp only [addrOperand, BitVec.toNat_setWidth]
  omega

/-- The sum NNN + V0 never wraps (R133). -/
theorem State.offsetTarget_toNat (s : State) (nnn : Addr) : (s.offsetTarget nnn).toNat = nnn.toNat + (s.getV 0).toNat := by
  have := nnn.isLt
  have := (s.getV 0).isLt
  simp only [State.offsetTarget, BitVec.toNat_add, addrOperand_toNat, BitVec.toNat_setWidth]
  omega

/-- Sums on a PC that names a word of memory, or is the address of one saved by a call, do not wrap. -/
theorem toNat_add_of_le {pc k : Word} (hpc : pc.toNat ≤ 0xFFE) (hk : k.toNat ≤ 4) :
    (pc + k).toNat = pc.toNat + k.toNat := by
  rw [BitVec.toNat_add]
  omega

theorem toNat_add_skipDistance {pc : Word} (hpc : pc.toNat ≤ 0xFFE) {cond : Bool} {p : Prop} [Decidable p]
    (h : cond = true ↔ p) : (pc + skipDistance cond).toNat = if p then pc.toNat + 4 else pc.toNat + 2 := by
  unfold skipDistance
  by_cases hp : p
  · rw [if_pos (h.2 hp), if_pos hp, toNat_add_of_le hpc (by decide)]; rfl
  · rw [if_neg (mt h.1 hp), if_neg hp, toNat_add_of_le hpc (by decide)]; rfl

/-! ## The final PC -/

/-- The state's PC is the final PC of the instruction, unless the instruction raised an error. -/
def EndsAtFinalPc (i : Instr) (s t : State) : Prop := (∀ k, t.engine ≠ .halted k) → t.pc.toNat = finalPc i s

theorem endsAtFinalPc_halt (i : Instr) (s : State) (k : ErrorKind) : EndsAtFinalPc i s (s.halt k) :=
  fun h => absurd rfl (h k)

/-- The shape of an operation with a range check: it is enough to look at the state in which the check holds. -/
theorem completes_endsAtFinalPc_of_cases {i : Instr} {fits beyond : Prop} {k : ErrorKind}
    (h : (fits ∧ exec i s = .next t) ∨ (beyond ∧ exec i s = .next (s.halt k))) (hpc : t.pc.toNat = finalPc i s) :
    Completes i s (EndsAtFinalPc i s) := by
  obtain ⟨_, hexec⟩ | ⟨_, hexec⟩ := h
  · exact ⟨_, hexec, fun _ => hpc⟩
  · exact ⟨_, hexec, endsAtFinalPc_halt i s k⟩

/-- A live slot of a state that meets the invariant, one below SP. -/
theorem State.Inv.savedSite (hinv : s.Inv) (hne : s.engine ≠ .unreset) (h : 0 < s.sp.val) (h' : s.sp.val - 1 < 16) :
    (s.stack[s.sp.val - 1]).toNat % 2 = 0 ∧ (s.stack[s.sp.val - 1]).toNat ≤ 0xFFE :=
  hinv.savedAddresses hne ⟨s.sp.val - 1, h'⟩ (Nat.sub_lt h Nat.one_pos)

theorem completes_endsAtFinalPc (i : Instr) (hinv : s.Inv) (hne : s.engine ≠ .unreset) (hpc : s.pc.toNat ≤ 0xFFE) :
    Completes i s (EndsAtFinalPc i s) := by
  have next : (s.pc + 2).toNat = s.pc.toNat + 2 := toNat_add_of_le hpc (by decide)
  cases i with
  | ret =>
    obtain ⟨h, _, hexec⟩ | ⟨_, hexec⟩ := execRet_cases s
    · refine ⟨_, hexec, fun _ => ?_⟩
      obtain ⟨_, hsite⟩ := hinv.savedSite hne h (by omega)
      simp only [finalPc, dif_pos h, State.jump_pc]
      exact toNat_add_of_le hsite (by decide)
    · exact ⟨_, hexec, endsAtFinalPc_halt _ s _⟩
  | jpAddr nnn => exact ⟨_, rfl, fun _ => addrOperand_toNat nnn⟩
  | jpV0Addr nnn => exact ⟨_, rfl, fun _ => s.offsetTarget_toNat nnn⟩
  | callAddr nnn =>
    obtain ⟨_, _, hexec⟩ | ⟨_, hexec⟩ := execCallAddr_cases nnn s
    · exact ⟨_, hexec, fun _ => addrOperand_toNat nnn⟩
    · exact ⟨_, hexec, endsAtFinalPc_halt _ s _⟩
  | seVxByte | seVxVy => exact ⟨_, rfl, fun _ => toNat_add_skipDistance hpc beq_iff_eq⟩
  | sneVxByte | sneVxVy => exact ⟨_, rfl, fun _ => toNat_add_skipDistance hpc bne_iff_ne⟩
  | skpVx x =>
    obtain ⟨_, hexec⟩ | ⟨_, hexec⟩ := keySkip_cases x true s
    · exact ⟨_, hexec, fun _ => toNat_add_skipDistance hpc beq_iff_eq⟩
    · exact ⟨_, hexec, endsAtFinalPc_halt _ s _⟩
  | sknpVx x =>
    obtain ⟨_, hexec⟩ | ⟨_, hexec⟩ := keySkip_cases x false s
    · exact ⟨_, hexec, fun _ => toNat_add_skipDistance hpc beq_iff_eq⟩
    · exact ⟨_, hexec, endsAtFinalPc_halt _ s _⟩
  | drwVxVyNibble x y n => exact completes_endsAtFinalPc_of_cases (execDrwVxVyNibble_cases x y n s) next
  | ldBVx x => exact completes_endsAtFinalPc_of_cases (storeAtI_cases (bcdDigits (s.getV x)) s) next
  | ldMemVx x => exact completes_endsAtFinalPc_of_cases (storeAtI_cases (s.regBytes x) s) next
  | ldVxMem x => exact completes_endsAtFinalPc_of_cases (execLdVxMem_cases x s) next
  | ldVxK => exact ⟨_, rfl, fun _ => rfl⟩
  | _ => exact ⟨_, rfl, fun _ => next⟩

/-- Settles O40: an error leaves PC with all the rest, and the other outcomes follow the table by cases. -/
theorem pcFinalisation : Obligations.PcFinalisation := by
  intro i s t hinv he _ hlast h
  refine ⟨fun k hk => by rw [eq_halt_of_exec he h hk, State.halt_pc], ?_⟩
  exact (completes_endsAtFinalPc i hinv (by simp [he]) (by omega)).post h

/-- BNNN's 0xFFF + 0xFF is the largest value any instruction writes to PC (10_state.md R26). -/
theorem finalPc_le (i : Instr) (hinv : s.Inv) (hne : s.engine ≠ .unreset) (hpc : s.pc.toNat ≤ 0xFFE) :
    finalPc i s ≤ 0x10FE := by
  cases i with
  | ret =>
    simp only [finalPc]
    split
    · next h =>
      obtain ⟨_, hsite⟩ := hinv.savedSite hne h (by omega)
      omega
    · omega
  | jpAddr nnn | callAddr nnn => have := nnn.isLt; simp only [finalPc]; omega
  | jpV0Addr nnn => have := nnn.isLt; have := (s.getV 0).isLt; simp only [finalPc]; omega
  | seVxByte | sneVxByte | seVxVy | sneVxVy | skpVx | sknpVx => simp only [finalPc]; split <;> omega
  | _ => simp only [finalPc]; omega

/-! ## The live slots -/

/-- Every slot that is live after an instruction was live before, or is the one in which a call saved PC. -/
def LiveSlotsFrom (s t : State) : Prop :=
  ∀ k : Fin 16, k.val < t.sp.val →
    (k.val < s.sp.val ∧ t.stack.get k = s.stack.get k) ∨ t.stack.get k = s.pc

theorem LiveSlotsFrom.of_sp_le (hsp : t.sp.val ≤ s.sp.val) (hstack : t.stack = s.stack) : LiveSlotsFrom s t :=
  fun _ hk => .inl ⟨hk.trans_le hsp, by rw [hstack]⟩

theorem stack_sp_notMem_partsChanged {i : Instr} (hret : i ≠ .ret) (hcall : ∀ nnn, i ≠ .callAddr nnn) :
    Part.stack ∉ partsChanged i ∧ Part.sp ∉ partsChanged i := by
  cases i <;> simp [partsChanged] at hret hcall ⊢

theorem exec_liveSlots {i : Instr} (h : exec i s = .next t) : LiveSlotsFrom s t := by
  by_cases hret : i = .ret
  · subst hret
    obtain ⟨_, _, hexec⟩ | ⟨_, hexec⟩ := execRet_cases s <;> cases hexec.symm.trans h
    · exact .of_sp_le (Nat.sub_le _ _) rfl
    · exact .of_sp_le le_rfl rfl
  · by_cases hcall : ∃ nnn, i = .callAddr nnn
    · obtain ⟨nnn, rfl⟩ := hcall
      obtain ⟨_, _, hexec⟩ | ⟨_, hexec⟩ := execCallAddr_cases nnn s <;> cases hexec.symm.trans h
      · intro k hk
        simp only [State.jump_stack, State.jump_sp, Vector.get_eq_getElem, Vector.getElem_set] at hk ⊢
        split
        · exact .inr rfl
        · exact .inl ⟨by omega, rfl⟩
      · exact .of_sp_le le_rfl rfl
    · obtain frame | ⟨_, _, rfl⟩ := exec_cases h
      · obtain ⟨hstack, hsp⟩ := stack_sp_notMem_partsChanged hret (by simpa using hcall)
        exact .of_sp_le (congrArg Fin.val (frame .sp hsp)).le (frame .stack hstack)
      · exact .of_sp_le le_rfl rfl

/-! ## The invariant over Steps -/

theorem State.Inv.halt (hinv : s.Inv) (he : s.engine = .running) {k : ErrorKind} (hk : k ≠ .programTooLarge) :
    (s.halt k).Inv where
  memory := hinv.memory
  pcBound _ := hinv.pcBound (by simp [he])
  savedAddresses _ := hinv.savedAddresses (by simp [he])
  haltKind := by simpa using hk
  waitingPc x hx := by simp at hx

theorem State.Inv.sampled (hinv : s.Inv) : s.sampled.Inv :=
  ⟨hinv.memory, hinv.pcBound, hinv.savedAddresses, hinv.haltKind, hinv.waitingPc⟩

/-- An instruction run at a word of memory keeps the invariant. -/
theorem State.Inv.exec (hinv : s.Inv) (he : s.engine = .running) (heven : s.pc.toNat % 2 = 0)
    (hpc : s.pc.toNat ≤ 0xFFE) {i : Instr} (h : exec i s = .next t) : t.Inv := by
  have hne : s.engine ≠ .unreset := by simp [he]
  obtain ⟨hsame, _⟩ | ⟨x, rfl, rfl⟩ | ⟨k, hk, rfl⟩ := exec_engine h
  · have hrun : t.engine = .running := hsame.trans he
    have hfinal : t.pc.toNat = finalPc i s := (completes_endsAtFinalPc i hinv hne hpc).post h (by simp [hrun])
    refine ⟨wf_mem_of_exec h hinv.memory, fun _ => hfinal ▸ finalPc_le i hinv hne hpc, fun _ k hk => ?_,
      by simp [hrun], by simp [hrun]⟩
    obtain ⟨hlive, hslot⟩ | hslot := exec_liveSlots h k hk
    · exact hslot ▸ hinv.savedAddresses hne k hlive
    · exact hslot ▸ ⟨heven, hpc⟩
  · exact ⟨hinv.memory, fun _ => hinv.pcBound hne, fun _ => hinv.savedAddresses hne, by simp,
      fun _ _ => ⟨heven, hpc⟩⟩
  · exact hinv.halt he hk

/-- A Step that waits for a key keeps the invariant: PC leaves the address of FX0A for the next. -/
theorem State.Inv.keyWait (hinv : s.Inv) {x : Reg} (he : s.engine = .awaitingKey x) : (s.keyWait x).Inv := by
  by_cases hnone : s.keys = 0
  · rwa [State.keyWait_of_no_key x hnone]
  · obtain ⟨k, hk⟩ := exists_firstKey hnone
    obtain ⟨_, hpc⟩ := hinv.waitingPc x he
    rw [State.keyWait_of_firstKey x hk]
    refine ⟨hinv.memory, fun _ => ?_, fun _ => hinv.savedAddresses (by simp [he]), by simp, by simp⟩
    have : (s.pc + 2).toNat = s.pc.toNat + 2 := toNat_add_of_le hpc (by decide)
    simp only [State.advance_pc, State.setV_pc, this]
    omega

/-- Settles O43: each kind of Step keeps the invariant. -/
theorem stepKeepsInv : Obligations.StepKeepsInv := by
  intro s t hinv h
  obtain ⟨_, _, rfl⟩ | ⟨x, he, rfl⟩ | ⟨he, k, hf, rfl⟩ | ⟨he, i, u, hf, hu, rfl⟩ := step_cases h
  · exact hinv
  · exact (hinv.keyWait he).sampled
  · exact (hinv.halt he (fetchInstr_error_ne_programTooLarge hf)).sampled
  · obtain ⟨⟨heven, hlast⟩, _⟩ := State.fetchInstr_eq_ok.1 hf
    exact (hinv.exec he heven (by omega) hu).sampled

/-! ## The invariant over transactions -/

/-- Reset's values meet the invariant, whatever the state before. -/
theorem State.Inv.hostReset (s : State) : s.hostReset.Inv where
  memory := reset_memory_wf
  pcBound _ := by simp [State.hostReset, State.reset]
  savedAddresses _ k hk := by simp [State.hostReset, State.reset] at hk
  haltKind := by simp [State.hostReset, State.reset]
  waitingPc x hx := by simp [State.hostReset, State.reset] at hx

/-- In Unreset the invariant claims the form of memory alone. -/
theorem State.Inv.of_unreset (he : s.engine = .unreset) (hmem : s.mem.wf = true) : s.Inv where
  memory := hmem
  pcBound h := absurd he h
  savedAddresses h := absurd he h
  haltKind := by simp [he]
  waitingPc x hx := by simp [he] at hx

/-- A Load that fits writes inside memory; one that does not leaves an Unreset engine with a memory in canonical form. -/
theorem State.Inv.hostLoad (s : State) (p : List Word) : (s.hostLoad p).Inv := by
  unfold State.hostLoad
  split
  · next hp =>
    obtain ⟨hmem, hpc, hslots, hhalt, hwait⟩ := State.Inv.hostReset s
    exact ⟨Memory.wf_writeWords hmem (programFits_iff.1 hp), hpc, hslots, hhalt, hwait⟩
  · exact .of_unreset (by rw [State.unspecified]) (by simp only [State.unspecified, Memory.wf_ofFn])

/-- Settles O42: the state after reset is the Reset of power-on, and a Reset meets the invariant from any state. -/
theorem resetMeetsInv : Obligations.ResetMeetsInv :=
  ⟨hostReset_powerOn ▸ State.Inv.hostReset _, State.Inv.hostReset⟩

/-- Settles O44: Reset and Load meet the invariant from any state, a Step keeps it, and the others touch nothing it names. -/
theorem transactionsKeepInv : Obligations.TransactionsKeepInv := by
  intro tr s t status hinv h
  cases tr with
  | reset => cases h; exact .hostReset s
  | load p => cases h; exact .hostLoad s p
  | step => exact stepKeepsInv s t hinv (transact_step_eq_next.1 h).1
  | seed | tickTimers | keys =>
    cases h
    exact ⟨hinv.memory, hinv.pcBound, hinv.savedAddresses, hinv.haltKind, hinv.waitingPc⟩

end Sys2Proof.Machine

/-! Jumps, call and return (41_control_flow.md section 1). -/

namespace Sys2Proof.Machine

/-- What a return does when there is a saved call site (R130). -/
theorem completes_ret (s : State) (h : 0 < s.sp.val) : Completes .ret s fun t =>
    t.sp.val = s.sp.val - 1 ∧ t.stack = s.stack ∧ t.pc = s.stack[s.sp.val - 1]'(by omega) + 2 ∧
      SameBut [.sp, .pc] s t := by
  obtain ⟨_, _, hexec⟩ | ⟨hempty, _⟩ := execRet_cases s
  · exact ⟨_, hexec, rfl, rfl, rfl, (sameBut_withSp s _).trans (sameBut_jump _ _)⟩
  · omega

theorem raises_ret (s : State) (h : s.sp.val = 0) : Raises .ret s .stackUnderflow := by
  obtain ⟨_, _, _⟩ | ⟨_, hexec⟩ := execRet_cases s
  · omega
  · exact hexec

/-- Settles O12: under the invariant the site is an even address of a word, so 2 beyond it is even and does not wrap. -/
theorem returnGoesBeyondCallSite : Obligations.ReturnGoesBeyondCallSite := by
  refine fun s => ⟨raises_ret s, fun h => (completes_ret s h).imp fun t ⟨hsp, _, hpc, frame⟩ =>
    ⟨hsp, hpc, frame, fun hinv hne => ?_⟩⟩
  obtain ⟨heven, hsite⟩ := hinv.savedSite hne h (by omega)
  have hsum : t.pc.toNat = (s.stack[s.sp.val - 1]).toNat + 2 := hpc ▸ toNat_add_of_le hsite (by decide)
  omega

/-- What a call does when there is a free slot (R132). -/
theorem completes_callAddr (s : State) (nnn : Addr) (h : s.sp.val < 16) : Completes (.callAddr nnn) s fun t =>
    t.stack[s.sp.val] = s.pc ∧ (∀ k : Fin 16, k.val ≠ s.sp.val → t.stack.get k = s.stack.get k) ∧
      t.sp.val = s.sp.val + 1 ∧ t.pc.toNat = nnn.toNat ∧ SameBut [.stack, .sp, .pc] s t := by
  obtain ⟨_, _, hexec⟩ | ⟨hfull, _⟩ := execCallAddr_cases nnn s
  · exact ⟨_, hexec, Vector.getElem_set_self _, fun k hk => Vector.getElem_set_ne h k.isLt hk.symm, rfl,
      addrOperand_toNat nnn, (sameBut_withStackSp s _ _).trans (sameBut_jump _ _)⟩
  · omega

theorem raises_callAddr (s : State) (nnn : Addr) (h : s.sp.val = 16) : Raises (.callAddr nnn) s .stackOverflow := by
  obtain ⟨_, _, _⟩ | ⟨_, hexec⟩ := execCallAddr_cases nnn s
  · omega
  · exact hexec

/-- Settles O13: the push fails exactly on a full stack, and otherwise fills the next slot. -/
theorem callSavesCallSite : Obligations.CallSavesCallSite :=
  fun s nnn => ⟨raises_callAddr s nnn, completes_callAddr s nnn⟩

/-- Settles O14: the slot the return pops is the one the call filled, and no live slot below it has changed. -/
theorem returnUndoesCall : Obligations.ReturnUndoesCall := by
  intro s t nnn hfree hcall t' hsp hslots
  obtain ⟨hsite, hbelow, htsp, _, _⟩ := (completes_callAddr s nnn hfree).post hcall
  have hsp' : t'.sp.val = s.sp.val + 1 := hsp ▸ htsp
  have hsite' : t'.stack[s.sp.val] = s.pc := (hslots ⟨s.sp.val, hfree⟩ (htsp ▸ Nat.lt_succ_self _)).trans hsite
  refine (completes_ret t' (by omega)).imp fun u ⟨husp, hustack, hupc, _⟩ => ⟨?pc, ?sp, fun k hk => ?slot⟩
  case pc => simp only [hupc, hsp', Nat.add_sub_cancel, hsite']
  case sp => exact Fin.ext (by omega)
  case slot =>
    calc u.stack.get k = t'.stack.get k := by rw [hustack]
      _ = t.stack.get k := hslots k (by omega)
      _ = s.stack.get k := hbelow k (by omega)

/-- Settles O15: both are a jump, to NNN and to a sum that never wraps. -/
theorem jumpsSetPc : Obligations.JumpsSetPc :=
  fun s nnn => ⟨⟨s.jump (addrOperand nnn), rfl, addrOperand_toNat nnn, sameBut_jump s _⟩,
    ⟨s.jump (s.offsetTarget nnn), rfl, s.offsetTarget_toNat nnn, sameBut_jump s _⟩⟩

end Sys2Proof.Machine

/-! Arithmetic, shifts and random (42_register_alu.md R171–R176). -/

namespace Sys2Proof.Machine

/-- What an instruction that writes a flag and then one register does: with X = F the result stays (R161). -/
theorem completes_of_exec_eq_writeFlagAndReg {i : Instr} {s : State} {x : Reg} {f b : Byte}
    (h : exec i s = writeFlagAndReg x f b s) :
    Completes i s fun t => t.getV x = b ∧ (x ≠ 0xF → t.getV 0xF = f) ∧ OtherRegs [x, 0xF] s t ∧ t.pc = s.pc + 2 ∧
      SameBut [.v, .pc] s t := by
  refine ⟨(s.setFlagThenV x f b).advance 2, h, ?result, fun hx => ?flag, otherRegs_setFlagThenV s x f b, rfl,
    (sameBut_setFlagThenV s x f b).trans (sameBut_advance _ 2)⟩
  case result => rw [State.getV_advance, State.getV_setFlagThenV, if_pos rfl]
  case flag => rw [State.getV_advance, State.getV_setFlagThenV, if_neg (Ne.symm hx), if_pos rfl]

theorem flag_toNat (b : Bool) : (flag b).toNat = if b then 1 else 0 := by
  cases b <;> rfl

/-- Settles O20: the flag is the carry out of the exact sum, and both operands are read before either write. -/
theorem addSetsCarry : Obligations.AddSetsCarry := by
  refine fun s x y => (completes_of_exec_eq_writeFlagAndReg rfl).imp fun t ⟨hv, hflag, frame⟩ =>
    ⟨?sum, fun hx => ?carry, frame⟩
  case sum => rw [hv, BitVec.toNat_add]
  case carry => simp only [hflag hx, carryFlag, flag_toNat, decide_eq_true_eq, gt_iff_lt]

/-- The difference of two bytes mod 256. -/
theorem toNat_sub_byte (a b : Byte) : (a - b).toNat = (a.toNat + 256 - b.toNat) % 256 := by
  have := b.isLt
  rw [BitVec.toNat_sub]
  congr 1
  omega

theorem greaterFlag_toNat (a b : Byte) : (greaterFlag a b).toNat = if b.toNat < a.toNat then 1 else 0 := by
  simp only [greaterFlag, flag_toNat, decide_eq_true_eq, gt_iff_lt]

/-- What 8XY5 and 8XY7 share: the difference of two bytes, and whether the minuend is strictly greater (R172, R174). -/
theorem completes_of_exec_eq_difference {i : Instr} {s : State} {x : Reg} {a b : Byte}
    (h : exec i s = writeFlagAndReg x (greaterFlag a b) (a - b) s) :
    Completes i s fun t => (t.getV x).toNat = (a.toNat + 256 - b.toNat) % 256 ∧
      (x ≠ 0xF → (t.getV 0xF).toNat = if b.toNat < a.toNat then 1 else 0) ∧ OtherRegs [x, 0xF] s t ∧
      t.pc = s.pc + 2 ∧ SameBut [.v, .pc] s t := by
  refine (completes_of_exec_eq_writeFlagAndReg h).imp fun t ⟨hv, hflag, frame⟩ => ⟨?_, fun hx => ?_, frame⟩
  · rw [hv, toNat_sub_byte]
  · rw [hflag hx, greaterFlag_toNat]

/-- Settles O21: both are a difference, with the operands in one order and in the other. -/
theorem subtractionsSetStrictGreater : Obligations.SubtractionsSetStrictGreater :=
  fun _ _ _ => ⟨completes_of_exec_eq_difference rfl, completes_of_exec_eq_difference rfl⟩

theorem lsbFlag_toNat (b : Byte) : (lsbFlag b).toNat = b.toNat % 2 := by
  simp [lsbFlag, Nat.and_one_is_mod]

theorem msbFlag_toNat (b : Byte) : (msbFlag b).toNat = b.toNat / 128 := by
  have := b.isLt
  have : b.toNat / 128 % 2 = b.toNat / 128 := by omega
  simpa [msbFlag, Nat.and_one_is_mod, Nat.shiftRight_eq_div_pow] using this

/-- Settles O22: a shift of V[X] itself, since the source in force is VX. -/
theorem shiftsPutOutTheEndBit : Obligations.ShiftsPutOutTheEndBit := by
  intro s x y
  refine ⟨?right, ?left⟩ <;>
    refine (completes_of_exec_eq_writeFlagAndReg rfl).imp fun t ⟨hv, hflag, frame⟩ => ⟨?_, fun hx => ?_, frame⟩
  case right.refine_1 => rw [hv, BitVec.toNat_ushiftRight, Nat.shiftRight_eq_div_pow]; rfl
  case right.refine_2 => rw [hflag hx, lsbFlag_toNat]; rfl
  case left.refine_1 => rw [hv, BitVec.toNat_shiftLeft, Nat.shiftLeft_eq]; rfl
  case left.refine_2 => rw [hflag hx, msbFlag_toNat]; rfl

/-- Settles O23: the write of V[X] comes over the one draw, whatever the generator. -/
theorem randomMakesOneDraw : Obligations.RandomMakesOneDraw := by
  intro s x nn
  refine ⟨_, rfl, fun k => ?bits, rfl, otherRegs_setV s x _, rfl, ?frame⟩
  case bits => rw [State.getV_advance, State.getV_setV_self, BitVec.getLsbD_and]; rfl
  case frame =>
    exact (((sameBut_withRng s _).trans (sameBut_setV _ x _)).trans (sameBut_advance _ 2)).mono (by decide)

end Sys2Proof.Machine

/-! The writes of I (43_index_memory.md R200–R202). -/

namespace Sys2Proof.Machine

/-- What an instruction that writes I does. -/
theorem completes_of_exec_eq_setI {i : Instr} {s : State} {a : Word} (h : exec i s = .next ((s.setI a).advance 2)) :
    Completes i s fun t => t.i = a ∧ t.pc = s.pc + 2 ∧ SameBut [.i, .pc] s t :=
  ⟨_, h, rfl, rfl, (sameBut_setI s a).trans (sameBut_advance _ 2)⟩

/-- A glyph's address, which no byte makes wrap. -/
theorem glyphAddr_toNat (b : Byte) : (glyphAddr b).toNat = 5 * b.toNat := by
  have := b.isLt
  have nowrap : b.toNat * 5 % 65536 = 5 * b.toNat := by omega
  simpa [glyphAddr] using nowrap

/-- Settles O24: each is a write of I, and only the sum of FX1E can wrap. -/
theorem indexWrites : Obligations.IndexWrites := by
  intro s x nnn
  refine ⟨?ldIAddr, ?addIVx, ?ldFVx⟩ <;>
    refine (completes_of_exec_eq_setI rfl).imp fun t ⟨hi, frame⟩ => ⟨?_, frame⟩ <;> rw [hi]
  case ldIAddr => exact addrOperand_toNat nnn
  case addIVx =>
    have := (s.getV x).isLt
    simp only [BitVec.toNat_add, BitVec.toNat_setWidth]
    omega
  case ldFVx => exact glyphAddr_toNat _

end Sys2Proof.Machine

/-! Timer and keypad instructions (45_timers_keypad.md). -/

namespace Sys2Proof.Machine

/-- Settles O34: a register write, or one of the two timers. -/
theorem timerInstructions : Obligations.TimerInstructions :=
  fun s _ => ⟨completes_of_exec_eq_writeReg rfl,
    ⟨_, rfl, rfl, rfl, (sameBut_withDt s _).trans (sameBut_advance _ 2)⟩,
    ⟨_, rfl, rfl, rfl, (sameBut_withSt s _).trans (sameBut_advance _ 2)⟩⟩

/-- What a key skip does on a number that is a key (R263, R264). -/
theorem completes_of_exec_eq_keySkip {i : Instr} {s : State} {x : Reg} {held : Bool} (h : exec i s = keySkip x held s)
    (hkey : (s.getV x).toNat < 16) : Completes i s fun t =>
      t.pc = s.pc + skipDistance (s.keys.getLsbD (s.getV x).toNat == held) ∧ SameBut [.pc] s t := by
  obtain ⟨_, hskip⟩ | ⟨hno, _⟩ := keySkip_cases x held s
  · exact ⟨_, h.trans hskip, rfl, sameBut_advance s _⟩
  · omega

theorem raises_of_exec_eq_keySkip {i : Instr} {s : State} {x : Reg} {held : Bool} (h : exec i s = keySkip x held s)
    (hno : 16 ≤ (s.getV x).toNat) : Raises i s .invalidOpcode := by
  obtain ⟨hkey, _⟩ | ⟨_, hskip⟩ := keySkip_cases x held s
  · omega
  · exact h.trans hskip

theorem skipDistance_beq_true (b : Bool) : skipDistance (b == true) = if b = true then 4 else 2 := by
  cases b <;> rfl

theorem skipDistance_beq_false (b : Bool) : skipDistance (b == false) = if b = true then 2 else 4 := by
  cases b <;> rfl

/-- Settles O35: both are a key skip, on a held and on a free key. -/
theorem keySkips : Obligations.KeySkips := by
  intro s x
  simp only [← skipDistance_beq_true, ← skipDistance_beq_false]
  exact ⟨fun hkey => ⟨completes_of_exec_eq_keySkip rfl hkey, completes_of_exec_eq_keySkip rfl hkey⟩,
    fun hno => ⟨raises_of_exec_eq_keySkip rfl hno, raises_of_exec_eq_keySkip rfl hno⟩⟩

/-- Settles O36: the handler replaces the engine state and no more. -/
theorem keyWaitEntry : Obligations.KeyWaitEntry :=
  fun s x => ⟨{ s with engine := .awaitingKey x }, rfl, rfl, sameBut_withEngine s _⟩

end Sys2Proof.Machine

/-! The stores FX33 and FX55 and the load FX65 (43_index_memory.md R203–R205). -/

namespace Sys2Proof.Machine

/-! ## A store through I -/

/-- What a store does when its range lies inside memory: byte k at I + k, and no other byte. -/
theorem completes_of_exec_eq_storeAtI {i : Instr} {s : State} {bytes : List Byte} (h : exec i s = storeAtI bytes s)
    (hb : s.i.toNat + bytes.length ≤ 4096) : Completes i s fun t =>
      (∀ k, k < bytes.length → t.mem.read (s.i.toNat + k) = bytes.getD k 0) ∧
      (∀ a, ¬ InRange s.i.toNat bytes.length a → t.mem.read a = s.mem.read a) ∧
      t.pc = s.pc + 2 ∧ SameBut [.mem, .pc] s t := by
  obtain ⟨_, hstore⟩ | ⟨hbeyond, _⟩ := storeAtI_cases bytes s
  · refine ⟨_, h.trans hstore, fun k hk => ?_, fun a ha => ?_, rfl, (sameBut_withMem s _).trans (sameBut_advance _ 2)⟩
    · rw [State.advance_mem, Memory.read_writeBytes, if_pos (by omega), Nat.add_sub_cancel_left]
    · rw [State.advance_mem, Memory.read_writeBytes]
      exact if_neg ha
  · omega

theorem raises_of_exec_eq_storeAtI {i : Instr} {s : State} {bytes : List Byte} (h : exec i s = storeAtI bytes s)
    (hb : 4096 < s.i.toNat + bytes.length) : Raises i s .memoryOutOfBounds := by
  obtain ⟨hfit, _⟩ | ⟨_, hstore⟩ := storeAtI_cases bytes s
  · omega
  · exact h.trans hstore

/-! ## FX33 -/

theorem bcdDigits_getD (b : Byte) {k : Nat} (hk : k < 3) : ((bcdDigits b).getD k 0).toNat = decimalDigit b k := by
  have := b.isLt
  interval_cases k <;> simp [bcdDigits, decimalDigit]
  omega

/-- FX33 stores the three decimal digits of V[X] (R203). -/
theorem completes_ldBVx (s : State) (x : Reg) (hb : s.i.toNat + 3 ≤ 4096) : Completes (.ldBVx x) s fun t =>
    (∀ k, k < 3 → (t.mem.read (s.i.toNat + k)).toNat = decimalDigit (s.getV x) k) ∧
    (∀ a, ¬ InRange s.i.toNat 3 a → t.mem.read a = s.mem.read a) ∧ t.pc = s.pc + 2 ∧ SameBut [.mem, .pc] s t :=
  (completes_of_exec_eq_storeAtI (bytes := bcdDigits (s.getV x)) rfl hb).imp fun _ ⟨hstored, frame⟩ =>
    ⟨fun k hk => by rw [hstored k hk, bcdDigits_getD _ hk], frame⟩

theorem decimalDigit_zero (b : Byte) : decimalDigit b 0 = b.toNat / 100 := by
  have := b.isLt
  simp only [decimalDigit]
  omega

/-- Settles O25: the three bytes are the digits by name. -/
theorem bcdStoresDigits : Obligations.BcdStoresDigits := by
  refine fun s x => ⟨fun hb => (completes_ldBVx s x hb).imp fun t ⟨hdigit, frame⟩ => ⟨?hundreds, ?tens, ?units, frame⟩,
    raises_of_exec_eq_storeAtI (bytes := bcdDigits (s.getV x)) rfl⟩
  case hundreds => exact (hdigit 0 (by decide)).trans (decimalDigit_zero _)
  case tens => exact hdigit 1 (by decide)
  case units => simpa [decimalDigit] using hdigit 2 (by decide)

/-! ## FX55 and FX65 -/

theorem regBytes_getD (s : State) {x r : Reg} (hr : r ≤ x) : (s.regBytes x).getD r.val 0 = s.getV r := by
  rw [List.getD_eq_getElem?_getD, State.regBytes_getElem?, dif_pos (by simpa using hr), Option.getD_some]

/-- FX55 stores V0..VX (R204). -/
theorem completes_ldMemVx (s : State) (x : Reg) (hb : s.i.toNat + x.val + 1 ≤ 4096) : Completes (.ldMemVx x) s fun t =>
    (∀ r : Reg, r ≤ x → t.mem.read (s.i.toNat + r.val) = s.getV r) ∧
    (∀ a, ¬ InRange s.i.toNat (x.val + 1) a → t.mem.read a = s.mem.read a) ∧
    t.pc = s.pc + 2 ∧ SameBut [.mem, .pc] s t := by
  have hlen := s.regBytes_length x
  refine (completes_of_exec_eq_storeAtI (bytes := s.regBytes x) rfl (by omega)).imp
    fun t ⟨hstored, hother, frame⟩ => ⟨fun r hr => ?_, hlen ▸ hother, frame⟩
  rw [hstored r.val (by simpa using Nat.lt_succ_of_le hr), regBytes_getD s hr]

/-- Settles O26: a store of the X + 1 bytes V0..VX. -/
theorem storeRegisters : Obligations.StoreRegisters :=
  fun s x => ⟨completes_ldMemVx s x, fun hb =>
    raises_of_exec_eq_storeAtI (bytes := s.regBytes x) rfl (by rw [s.regBytes_length]; omega)⟩

/-- FX65 loads V0..VX (R205). -/
theorem completes_ldVxMem (s : State) (x : Reg) (hb : s.i.toNat + x.val + 1 ≤ 4096) : Completes (.ldVxMem x) s fun t =>
    (∀ r : Reg, r ≤ x → t.getV r = s.mem.read (s.i.toNat + r.val)) ∧ (∀ r : Reg, x < r → t.getV r = s.getV r) ∧
      t.pc = s.pc + 2 ∧ SameBut [.v, .pc] s t := by
  obtain ⟨_, hexec⟩ | ⟨hbeyond, _⟩ := execLdVxMem_cases x s
  · refine ⟨_, hexec, fun r hr => ?_, fun r hr => ?_, rfl, (sameBut_loadRegs s x _).trans (sameBut_advance _ 2)⟩
    · rw [State.getV_advance, State.getV_loadRegs, if_pos hr, Memory.readBytes_getD, if_pos (Nat.lt_succ_of_le hr)]
    · rw [State.getV_advance, State.getV_loadRegs, if_neg (not_le.2 hr)]
  · omega

/-- Settles O27: the bulk read is of the X + 1 bytes from I up, and the range check comes first. -/
theorem loadRegisters : Obligations.LoadRegisters := by
  refine fun s x => ⟨completes_ldVxMem s x, fun hb => ?_⟩
  obtain ⟨hfit, _⟩ | ⟨_, hexec⟩ := execLdVxMem_cases x s
  · omega
  · exact hexec

/-- Settles O28: the load reads the addresses that the store wrote, since I and memory are as the store left them. -/
theorem loadRestoresStoredRegisters : Obligations.LoadRestoresStoredRegisters := by
  intro s t t' x hb hstore hi hmem
  obtain ⟨hstored, _, _, frame⟩ := (completes_ldMemVx s x hb).post hstore
  have hi' : t'.i = s.i := hi.trans (frame .i (by decide))
  refine (completes_ldVxMem t' x (hi' ▸ hb)).imp fun u ⟨hloaded, _⟩ r hr => ?_
  rw [hloaded r hr, hi', hmem, hstored r hr]

/-! ## Fetching what was stored -/

theorem readWord_toNat (m : Memory) (a : Nat) :
    (m.readWord a).toNat = (m.read a).toNat * 256 + (m.read (a + 1)).toNat := by
  have hlo : (m.read (a + 1)).toNat < 2 ^ 8 := (m.read (a + 1)).isLt
  calc (m.readWord a).toNat = (m.read a).toNat <<< 8 ||| (m.read (a + 1)).toNat := BitVec.toNat_append ..
    _ = (m.read a).toNat * 256 + (m.read (a + 1)).toNat := by
      rw [← Nat.shiftLeft_add_eq_or_of_lt hlo, Nat.shiftLeft_eq]

/-- A fetch reads each of its two bytes where it lies in memory, the one at PC being the high half (R64, R70). -/
theorem fetchesByte_of_read {s : State} (heven : s.pc.toNat % 2 = 0) (hlast : s.pc.toNat + 1 < 4096) {a : Nat} {b : Nat}
    (hread : (s.mem.read a).toNat = b) : FetchesByte s a b := by
  have hword := readWord_toNat s.mem s.pc.toNat
  have := (s.mem.read (s.pc.toNat + 1)).isLt
  refine ⟨s.mem.readWord s.pc.toNat, if_pos (State.fetchable_iff.2 ⟨heven, hlast⟩), fun h => ?_, fun h => ?_⟩ <;>
    subst h <;> omega

/-- Settles O29: the byte stored is the byte read at its address, and a fetch reads memory as it stands. -/
theorem storeIsSeenByFetch : Obligations.StoreIsSeenByFetch := by
  refine fun s t t' x heven hlast => ⟨fun hb hstore r hr hkept => ?regs, fun hb hstore k hk hkept => ?digits⟩ <;>
    refine fetchesByte_of_read heven hlast ?_ <;> rw [hkept]
  case regs =>
    obtain ⟨hstored, _⟩ := (completes_ldMemVx s x hb).post hstore
    rw [hstored r hr]
  case digits =>
    obtain ⟨hdigit, _⟩ := (completes_ldBVx s x hb).post hstore
    exact hdigit k hk

end Sys2Proof.Machine

/-! Canonical memories, and a program placed by Load (70_reset_and_hazards.md section 3). -/

namespace Sys2Proof.Machine

/-! ## Canonical memories that read alike -/

/-- An address that is not listed reads as its reset content. -/
theorem Memory.read_eq_initial {m : Memory} {a : Nat} (h : ∀ c ∈ m, a ≠ c.1) : m.read a = Memory.initial a := by
  induction m with
  | nil => rfl
  | cons c m ih =>
    simp only [Memory.read, if_neg (Ne.symm (h c (by simp)))]
    exact ih fun d hd => h d (List.mem_cons_of_mem _ hd)

/-- In canonical form the first listed address is the first that reads as something else than its reset content. -/
theorem Memory.read_ne_initial_of_head {a : Nat} {b : Byte} {m : Memory} (h : Memory.wf ((a, b) :: m) = true) :
    a < 4096 ∧ Memory.read ((a, b) :: m) a = b ∧ b ≠ Memory.initial a ∧
      ∀ c < a, Memory.read ((a, b) :: m) c = Memory.initial c := by
  obtain ⟨ha, hb, hrise, _⟩ := Memory.wf_cons.1 h
  refine ⟨ha, by simp [Memory.read], hb, fun c hc => Memory.read_eq_initial fun d hd => ?_⟩
  rcases List.mem_cons.1 hd with rfl | hd
  · exact hc.ne
  · exact (hc.trans (hrise d hd)).ne

/-- Settles O45: the first listed addresses agree, so their bytes do; and below the tails' first addresses both read the reset
content. -/
theorem canonicalMemoriesAgree : Obligations.CanonicalMemoriesAgree := by
  intro m
  induction m with
  | nil =>
    rintro (_ | ⟨⟨a, b⟩, m'⟩) _ hwf' hread
    · rfl
    · obtain ⟨ha, hb, hne, _⟩ := Memory.read_ne_initial_of_head hwf'
      exact absurd (hb.symm.trans (hread a ha).symm) hne
  | cons c m ih =>
    obtain ⟨a, b⟩ := c
    intro m' hwf hwf' hread
    obtain ⟨ha, hb, hne, hbelow⟩ := Memory.read_ne_initial_of_head hwf
    cases m' with
    | nil => exact absurd (hb.symm.trans (hread a ha)) hne
    | cons c' m' =>
      obtain ⟨a', b'⟩ := c'
      obtain ⟨ha', hb', hne', hbelow'⟩ := Memory.read_ne_initial_of_head hwf'
      obtain hlt | rfl | hgt := lt_trichotomy a a'
      · exact absurd (hb.symm.trans ((hread a ha).trans (hbelow' a hlt))) hne
      · obtain rfl : b = b' := hb.symm.trans ((hread a ha).trans hb')
        obtain ⟨_, _, hrise, hm⟩ := Memory.wf_cons.1 hwf
        obtain ⟨_, _, hrise', hm'⟩ := Memory.wf_cons.1 hwf'
        refine congrArg _ (ih m' hm hm' fun d hd => ?_)
        by_cases hda : a = d
        · subst hda
          rw [Memory.read_eq_initial fun c hc => (hrise c hc).ne, Memory.read_eq_initial fun c hc => (hrise' c hc).ne]
        · simpa [Memory.read, hda] using hread d hd
      · exact absurd (hb'.symm.trans ((hread a' ha').symm.trans (hbelow a' hgt))) hne'

/-! ## Load -/

theorem highByte_toNat (w : Word) : (highByte w).toNat = w.toNat / 256 := by
  have := w.isLt
  simp only [highByte, BitVec.extractLsb'_toNat, Nat.shiftRight_eq_div_pow]
  omega

theorem lowByte_toNat (w : Word) : (lowByte w).toNat = w.toNat % 256 := by
  simp [lowByte]

/-- The two bytes of word j stand at 2j and 2j + 1 of the bytes of the words. -/
theorem flatMap_bytes_getD {ws : List Word} {j : Nat} {w : Word} (h : ws[j]? = some w) :
    (ws.flatMap fun w => [highByte w, lowByte w]).getD (2 * j) 0 = highByte w ∧
    (ws.flatMap fun w => [highByte w, lowByte w]).getD (2 * j + 1) 0 = lowByte w := by
  induction ws generalizing j with
  | nil => simp at h
  | cons v ws ih =>
    cases j with
    | zero => simp_all
    | succ j => simpa [Nat.mul_succ] using ih (by simpa using h)

/-- Words stored from a up: word j is the two bytes at a + 2j, high byte first, and no other byte changes (R345). -/
theorem Memory.read_writeWords {m : Memory} {a : Nat} {ws : List Word} :
    (∀ j w, ws[j]? = some w → (m.writeWords a ws).read (a + 2 * j) = highByte w ∧
      (m.writeWords a ws).read (a + 2 * j + 1) = lowByte w) ∧
    ∀ c, ¬ InRange a (2 * ws.length) c → (m.writeWords a ws).read c = m.read c := by
  simp only [Memory.writeWords, Memory.read_writeBytes, flatMap_bytes_length]
  refine ⟨fun j w h => ?_, fun c hc => if_neg hc⟩
  have hj : j < ws.length := (List.getElem?_eq_some_iff.1 h).1
  obtain ⟨hhigh, hlow⟩ := flatMap_bytes_getD h
  rw [if_pos (by omega), if_pos (by omega), Nat.add_sub_cancel_left, Nat.add_assoc, Nat.add_sub_cancel_left]
  exact ⟨hhigh, hlow⟩

theorem State.hostLoad_of_fits (s : State) {p : List Word} (hp : 0x200 + 2 * p.length ≤ 0x1000) :
    s.hostLoad p = { s.hostReset with mem := s.hostReset.mem.writeWords Config.progBase p } :=
  if_pos (programFits_iff.2 hp)

theorem State.hostLoad_of_not_fits (s : State) {p : List Word} (hp : 0x1000 < 0x200 + 2 * p.length) :
    s.hostLoad p = { State.unspecified (s.draws + 1) with keyPort := s.keyPort } :=
  if_neg (mt programFits_iff.1 hp.not_ge)

theorem transact_load_of_fits (s : State) {p : List Word} (hp : 0x200 + 2 * p.length ≤ 0x1000) :
    transact (.load p) s = .next (.ok, s.hostLoad p) := by
  simp only [transact, if_pos (programFits_iff.2 hp)]

theorem transact_load_of_not_fits (s : State) {p : List Word} (hp : 0x1000 < 0x200 + 2 * p.length) :
    transact (.load p) s = .next (.err .programTooLarge, s.hostLoad p) := by
  simp only [transact, if_neg (mt programFits_iff.1 hp.not_ge)]

/-- Settles O47: Load stores the words over the memory of a Reset, and touches nothing else of it. -/
theorem loadPlacesProgram : Obligations.LoadPlacesProgram := by
  intro s p hp
  obtain ⟨hwords, hother⟩ := Memory.read_writeWords (m := s.hostReset.mem) (a := 0x200) (ws := p)
  refine ⟨_, transact_load_of_fits s hp, ?_⟩
  rw [s.hostLoad_of_fits hp]
  refine ⟨fun j w hw => ?_, hother, sameBut_withMem _ _⟩
  obtain ⟨hhigh, hlow⟩ := hwords j w hw
  exact ⟨(congrArg _ hhigh).trans (highByte_toNat w), (congrArg _ hlow).trans (lowByte_toNat w)⟩

/-! ## A failed Load -/

/-- Everything but a Reset or a Load that fits leaves an Unreset engine Unreset, or is refused because of it. -/
theorem transact_of_unreset {s : State} (he : s.engine = .unreset) {tr : Transaction} (hreset : tr ≠ .reset)
    (hload : ∀ q, tr = .load q → 0x1000 < 0x200 + 2 * q.length) :
    transact tr s = .refused .unreset ∨ ∃ status u, transact tr s = .next (status, u) ∧ u.engine = .unreset := by
  cases tr with
  | reset => exact absurd rfl hreset
  | load q =>
    refine .inr ⟨_, _, transact_load_of_not_fits s (hload q rfl), ?_⟩
    rw [s.hostLoad_of_not_fits (hload q rfl), State.unspecified]
  | step => simp only [transact, step_eq_of_unreset he]; exact .inl trivial
  | seed | tickTimers | keys => exact .inr ⟨_, _, rfl, he⟩

/-- Settles O48: by induction on the transactions, the engine staying Unreset. -/
theorem failedLoadNeedsReset : Obligations.FailedLoadNeedsReset := by
  intro s p hp
  refine ⟨_, transact_load_of_not_fits s hp, fun ts hts => ?_⟩
  have he : (s.hostLoad p).engine = .unreset := by rw [s.hostLoad_of_not_fits hp, State.unspecified]
  generalize s.hostLoad p = t at he
  induction ts generalizing t with
  | nil => simp [runTransactions, transact, step_eq_of_unreset he]
  | cons tr ts ih =>
    obtain ⟨hreset, hload⟩ := hts tr (by simp)
    obtain h | ⟨status, u, h, hu⟩ := transact_of_unreset he hreset hload
    · simp [runTransactions, h]
    · simp [runTransactions, h, ih (fun q hq => hts q (List.mem_cons_of_mem _ hq)) u hu]

/-! ## Reset, seed and ticks -/

theorem State.hostReset_rng {s : State} {seed : Seed} (h : s.seedCfg = some seed) :
    s.hostReset.rng = Config.rngInit seed := by
  simp only [State.hostReset, h]

theorem State.hostReset_rng_of_unseeded {s : State} (h : s.seedCfg = none) :
    s.hostReset.rng = Config.rngInit (Config.entropy s.draws) := by
  simp only [State.hostReset, h]

/-- The font starts at address 0, and beyond it every byte resets to 0. -/
theorem Memory.initial_eq_font (a : Nat) : Memory.initial a = Config.font.getD a 0 := rfl

/-- Settles O46: memory lists nothing after Reset, so it reads as its reset content, and the rest is what Reset writes. -/
theorem resetValues : Obligations.ResetValues := by
  refine fun s => ⟨s.getV_hostReset, rfl, rfl, rfl, fun k => ?slots, rfl, rfl, fun a _ => Memory.initial_eq_font a, ?glyphF,
    fun a ha _ => List.getD_eq_default _ _ ha, s.fb.pixel_clear, rfl, rfl, fun _ => State.hostReset_rng,
    fun hnone => ⟨_, State.hostReset_rng_of_unseeded hnone⟩⟩
  case slots => exact Vector.getElem_replicate _
  case glyphF => rfl

/-- A timer that is 0 stays, as a number less one does. -/
theorem tickTimer_toNat (b : Byte) : (tickTimer b).toNat = b.toNat - 1 := by
  unfold tickTimer
  split
  · next h => subst h; rfl
  · next h =>
    have : b.toNat ≠ 0 := fun h0 => h (BitVec.eq_of_toNat_eq h0)
    bv_omega

/-- Settles O49: one less, as numbers that stop at 0. -/
theorem tickDecrementsNonzeroTimers : Obligations.TickDecrementsNonzeroTimers :=
  fun s => ⟨_, rfl, tickTimer_toNat s.dt, tickTimer_toNat s.st,
    (sameBut_withDt s (tickTimer s.dt)).trans (sameBut_withSt _ (tickTimer s.st))⟩

theorem sameBut_hostSeed (s : State) (seed : Seed) : SameBut [.rng, .seedCfg] s (s.hostSeed seed) := by
  intro p hp
  cases p <;> simp [Part.same, State.hostSeed, State.getV] at *

/-- Settles O50: Reset looks at the configured seed, and a Load that fits is a Reset before it writes. -/
theorem seedIsSticky : Obligations.SeedIsSticky := by
  refine fun s seed => ⟨_, rfl, rfl, rfl, sameBut_hostSeed s seed, fun u hu => ⟨State.hostReset_rng hu, fun p hp => ?_⟩⟩
  rw [u.hostLoad_of_fits hp]
  exact State.hostReset_rng hu

/-- A Reset erases everything but the seed and the inputs. -/
theorem hostReset_congr {s s' : State} (hseed : s.seedCfg = s'.seedCfg) (hkeys : s.keyPort = s'.keyPort)
    (hdraws : s.draws = s'.draws) : s.hostReset = s'.hostReset := by
  simp only [State.hostReset, hseed, hkeys, hdraws]

/-- Settles O51: seeded alike and loaded alike, the two engines are in one state from there on. -/
theorem seededRunsAreIdentical : Obligations.SeededRunsAreIdentical := by
  intro s s' seed p ts hp hdraws hkeys
  have hload : (s.hostSeed seed).hostLoad p = (s'.hostSeed seed).hostLoad p := by
    rw [State.hostLoad_of_fits _ hp, State.hostLoad_of_fits _ hp,
      hostReset_congr (s := s.hostSeed seed) (s' := s'.hostSeed seed) rfl hkeys hdraws]
  simp only [runTransactions, transact, hload]

/-- Settles O52: each observer is its range check over the value. -/
theorem observersCheckTheirRanges : Obligations.ObserversCheckTheirRanges :=
  fun _ _ _ => ⟨fun ha hb => dif_pos ⟨ha, hb⟩, fun h => dif_neg h, fun h => if_pos h, fun h => if_neg h.not_gt,
    fun h => dif_pos h, fun h => dif_neg h.not_gt⟩

end Sys2Proof.Machine

/-! The draw as one description of its pixels, under both edge policies, and DXYN (44_display.md sections 2 and 3). -/

namespace Sys2Proof.Machine

/-! ## The draw as a list of pixels -/

/-- A pixel's column and row. -/
abbrev Pixel := Fin 64 × Fin 32

/-- A set sprite bit at a pixel: the pixel is turned over, and collides if it was on. -/
def hitPixel (d : Drawing) (p : Pixel) : Drawing := (d.1.toggle p.1 p.2, d.2 || d.1.pixel p.1 p.2)

/-- The pixel that column offset c of a sprite row turns over, if its bit is set and not dropped. -/
def rowHit (policy : EdgePolicy) (xa ty : Nat) (row : Byte) (c : Nat) : Option Pixel :=
  if spriteBit row c then edgeTarget policy (xa + c) ty else none

/-- The pixels a sprite turns over, in the order of the draw. -/
def hits (policy : EdgePolicy) (xa ty : Nat) : List Byte → List Pixel
  | [] => []
  | row :: rows => (List.range 8).filterMap (rowHit policy xa ty row) ++ hits policy xa (ty + 1) rows

theorem drawBit_eq_elim (policy : EdgePolicy) (xa ty : Nat) (row : Byte) (c : Nat) (d : Drawing) :
    drawBit policy (xa + c) ty (spriteBit row c) d = (rowHit policy xa ty row c).elim d (hitPixel d) := by
  unfold drawBit rowHit
  cases edgeTarget policy (xa + c) ty <;> cases spriteBit row c <;> rfl

theorem drawRow_eq_foldl (policy : EdgePolicy) (xa ty : Nat) (row : Byte) (d : Drawing) :
    drawRow policy xa ty row d = ((List.range 8).filterMap (rowHit policy xa ty row)).foldl hitPixel d := by
  rw [List.foldl_filterMap, drawRow]
  congr 1
  funext d c
  rw [drawBit_eq_elim]
  cases rowHit policy xa ty row c <;> rfl

theorem drawRows_eq_foldl (policy : EdgePolicy) (xa ty : Nat) (rows : List Byte) (d : Drawing) :
    drawRows policy xa ty rows d = (hits policy xa ty rows).foldl hitPixel d := by
  induction rows generalizing ty d with
  | nil => rfl
  | cons row rows ih => rw [drawRows, hits, List.foldl_append, ih, drawRow_eq_foldl]

/-! ## The pixels of the list -/

/-- Some set sprite bit reaches the pixel. -/
def Covers (policy : EdgePolicy) (xa ya : Nat) (rows : List Byte) (x : Fin 64) (y : Fin 32) : Prop :=
  ∃ r c, c < 8 ∧ edgeTarget policy (xa + c) (ya + r) = some (x, y) ∧ (rows.getD r 0).getLsbD (7 - c) = true

theorem rowHit_eq_some {policy : EdgePolicy} {xa ty : Nat} {row : Byte} {c : Nat} {p : Pixel} :
    rowHit policy xa ty row c = some p ↔ edgeTarget policy (xa + c) ty = some p ∧ row.getLsbD (7 - c) = true := by
  rw [rowHit, Option.ite_none_right_eq_some, spriteBit, and_comm]

theorem mem_rowHits {policy : EdgePolicy} {xa ty : Nat} {row : Byte} {p : Pixel} :
    p ∈ (List.range 8).filterMap (rowHit policy xa ty row) ↔
      ∃ c, c < 8 ∧ edgeTarget policy (xa + c) ty = some p ∧ row.getLsbD (7 - c) = true := by
  simp only [List.mem_filterMap, List.mem_range, rowHit_eq_some]

theorem mem_hits {policy : EdgePolicy} {xa ty : Nat} {rows : List Byte} {x : Fin 64} {y : Fin 32} :
    (x, y) ∈ hits policy xa ty rows ↔ Covers policy xa ty rows x y := by
  induction rows generalizing ty with
  | nil => simp [hits, Covers]
  | cons row rows ih =>
    rw [hits, List.mem_append, mem_rowHits, ih]
    constructor
    · rintro (⟨c, hc, ht, hb⟩ | ⟨r, c, hc, ht, hb⟩)
      · exact ⟨0, c, hc, ht, hb⟩
      · exact ⟨r + 1, c, hc, by rwa [Nat.add_comm r, ← Nat.add_assoc], hb⟩
    · rintro ⟨_ | r, c, hc, ht, hb⟩
      · exact .inl ⟨c, hc, ht, hb⟩
      · exact .inr ⟨r, c, hc, by rwa [Nat.add_assoc, Nat.add_comm 1], hb⟩

/-- Two targets of one pixel agree mod 64 and mod 32, under either policy. -/
theorem edgeTarget_inj {policy : EdgePolicy} {tx ty tx' ty' : Nat} {p : Pixel}
    (h : edgeTarget policy tx ty = some p) (h' : edgeTarget policy tx' ty' = some p) :
    tx % 64 = tx' % 64 ∧ ty % 32 = ty' % 32 := by
  cases policy with
  | clip =>
    obtain ⟨hx, hy⟩ := edgeTarget_clip.1 h
    obtain ⟨hx', hy'⟩ := edgeTarget_clip.1 h'
    omega
  | wrap =>
    obtain ⟨hx, hy⟩ := edgeTarget_wrap.1 h
    obtain ⟨hx', hy'⟩ := edgeTarget_wrap.1 h'
    omega

/-- The eight columns of a row are distinct mod 64. -/
theorem nodup_rowHits (policy : EdgePolicy) (xa ty : Nat) (row : Byte) :
    ((List.range 8).filterMap (rowHit policy xa ty row)).Nodup := by
  have hcolumns : (List.range 8).Pairwise fun c c' => c < 8 ∧ c' < 8 ∧ c ≠ c' := by decide
  refine hcolumns.filterMap _ fun c c' ⟨hc, hc', hne⟩ p hp p' hp' heq => ?_
  obtain ⟨ht, _⟩ := rowHit_eq_some.1 hp
  obtain ⟨ht', _⟩ := rowHit_eq_some.1 hp'
  obtain ⟨hcolumn, _⟩ := edgeTarget_inj ht (heq ▸ ht')
  omega

/-- A sprite of at most 32 rows turns no pixel over twice: its rows are distinct mod 32. -/
theorem nodup_hits (policy : EdgePolicy) (xa ty : Nat) (rows : List Byte) (hlen : rows.length ≤ 32) :
    (hits policy xa ty rows).Nodup := by
  induction rows generalizing ty with
  | nil => exact List.nodup_nil
  | cons row rows ih =>
    simp only [List.length_cons] at hlen
    refine List.Nodup.append (nodup_rowHits policy xa ty row) (ih _ (by omega)) fun p hp hp' => ?_
    obtain ⟨c, _, ht, _⟩ := mem_rowHits.1 hp
    obtain ⟨r, c', _, ht', hb⟩ := mem_hits.1 hp'
    have hr : r < rows.length := by
      by_contra hr
      rw [List.getD_eq_default _ _ (not_lt.1 hr)] at hb
      simp at hb
    obtain ⟨_, hrows⟩ := edgeTarget_inj ht ht'
    omega

theorem hitPixel_pixel_self (d : Drawing) (x : Fin 64) (y : Fin 32) :
    (hitPixel d (x, y)).1.pixel x y = !d.1.pixel x y := by
  simp [hitPixel, FrameBuffer.pixel_toggle]

theorem hitPixel_pixel_of_ne (d : Drawing) {p : Pixel} {x : Fin 64} {y : Fin 32} (h : (x, y) ≠ p) :
    (hitPixel d p).1.pixel x y = d.1.pixel x y := by
  rw [hitPixel, FrameBuffer.pixel_toggle, if_neg fun ⟨hx, hy⟩ => h (Prod.ext hx hy)]

/-- Turning over pixels, none of them twice: each is inverted, the others are kept, and the collision is that one of them was
on at the start. -/
theorem foldl_hitPixel {ps : List Pixel} (hnodup : ps.Nodup) (d : Drawing) :
    (∀ x y, (x, y) ∈ ps → (ps.foldl hitPixel d).1.pixel x y = !d.1.pixel x y) ∧
    (∀ x y, (x, y) ∉ ps → (ps.foldl hitPixel d).1.pixel x y = d.1.pixel x y) ∧
    ((ps.foldl hitPixel d).2 = true ↔ d.2 = true ∨ ∃ x y, (x, y) ∈ ps ∧ d.1.pixel x y = true) := by
  induction ps generalizing d with
  | nil => simp
  | cons p ps ih =>
    obtain ⟨hp, hnodup⟩ := List.nodup_cons.1 hnodup
    obtain ⟨hin, hout, hcollision⟩ := ih hnodup (hitPixel d p)
    have ne_of_mem {x y} (hmem : (x, y) ∈ ps) : (x, y) ≠ p := fun h => hp (h ▸ hmem)
    refine ⟨fun x y hmem => ?_, fun x y hmem => ?_, ?_⟩
    · obtain rfl | hmem := List.mem_cons.1 hmem
      · exact (hout x y hp).trans (hitPixel_pixel_self d x y)
      · rw [List.foldl_cons, hin x y hmem, hitPixel_pixel_of_ne d (ne_of_mem hmem)]
    · obtain ⟨hne, hmem⟩ := not_or.1 (mt List.mem_cons.2 hmem)
      exact (hout x y hmem).trans (hitPixel_pixel_of_ne d hne)
    · have later : (∃ x y, (x, y) ∈ ps ∧ (hitPixel d p).1.pixel x y = true) ↔
          ∃ x y, (x, y) ∈ ps ∧ d.1.pixel x y = true :=
        exists₂_congr fun x y => and_congr_right fun hmem => by rw [hitPixel_pixel_of_ne d (ne_of_mem hmem)]
      rw [List.foldl_cons, hcollision, later]
      simp [hitPixel, Prod.ext_iff, or_and_right, exists_or, and_assoc, or_assoc]

/-- The bit-by-bit draw is the one-shot description, for each policy. -/
theorem draw_xorsExactly (fb : FrameBuffer) (policy : EdgePolicy) (xa ya : Byte) {rows : List Byte}
    (hlen : rows.length ≤ 32) :
    XorsExactly (Covers policy xa.toNat ya.toNat rows) fb (fb.draw policy xa ya rows).1 (fb.draw policy xa ya rows).2 := by
  have h := foldl_hitPixel (nodup_hits policy xa.toNat ya.toNat rows hlen) (fb, false)
  simpa only [XorsExactly, FrameBuffer.draw, drawRows_eq_foldl, mem_hits, Bool.false_eq_true, false_or] using h

theorem covers_clip : Covers .clip = ClipCovers := by
  funext xa ya rows x y
  simp only [Covers, ClipCovers, edgeTarget_clip, and_assoc]

theorem covers_wrap : Covers .wrap = WrapCovers := by
  funext xa ya rows x y
  simp only [Covers, WrapCovers, edgeTarget_wrap, and_assoc]

/-- Settles O31: no pixel is reached twice, so the order of the bits does not matter, under clip or wrap. -/
theorem drawXorsCoveredPixels : Obligations.DrawXorsCoveredPixels := by
  intro fb xa ya rows hlen
  rw [← covers_clip, ← covers_wrap]
  exact ⟨draw_xorsExactly fb .clip xa ya (by omega), draw_xorsExactly fb .wrap xa ya (by omega)⟩

/-! ## Drawing twice -/

/-- Turning the same pixels over twice restores the frame buffer; a second time without a first collision collides exactly
when there was a pixel to turn over. -/
theorem XorsExactly.twice {covers : Fin 64 → Fin 32 → Prop} {a b c : FrameBuffer} {k k' : Bool}
    (h : XorsExactly covers a b k) (h' : XorsExactly covers b c k') :
    c = a ∧ (k = false → (k' = true ↔ b ≠ a)) := by
  obtain ⟨hin, hout, hk⟩ := h
  obtain ⟨hin', hout', hk'⟩ := h'
  refine ⟨FrameBuffer.ext_pixel fun x y => ?_, fun hfree => ?_⟩
  · by_cases hxy : covers x y
    · rw [hin' x y hxy, hin x y hxy, Bool.not_not]
    · rw [hout' x y hxy, hout x y hxy]
  · rw [hk']
    constructor
    · rintro ⟨x, y, hxy, _⟩ rfl
      simpa using hin x y hxy
    · intro hne
      by_contra hnone
      refine hne (FrameBuffer.ext_pixel fun x y => hout x y fun hxy => hnone ⟨x, y, hxy, ?_⟩)
      rw [hin x y hxy]
      by_contra hon
      exact absurd (hk.2 ⟨x, y, hxy, by simpa using hon⟩) (by simp [hfree])

/-- Settles O33: both draws turn over the same covered pixels. -/
theorem drawTwiceRestores : Obligations.DrawTwiceRestores := by
  intro fb policy xa ya rows hlen
  exact (draw_xorsExactly fb policy xa ya (by omega)).twice (draw_xorsExactly _ policy xa ya (by omega))

/-! ## DXYN -/

/-- What DXYN's sprite covers, read off memory: bit 7 - c of the byte at I + r (R238, R241). -/
theorem clipCovers_readBytes (m : Memory) (a n xa ya : Nat) :
    ClipCovers xa ya (m.readBytes a n) = fun x y =>
      ∃ r c, r < n ∧ c < 8 ∧ xa + c = x.val ∧ ya + r = y.val ∧ (m.read (a + r)).getLsbD (7 - c) = true := by
  funext x y
  simp only [ClipCovers, Memory.readBytes_getD]
  refine propext (exists₂_congr fun r c => ?_)
  by_cases hr : r < n <;> simp [hr]

/-- Settles O32: the draw is of the N bytes from I up, at most 15, at the registers' values before VF is written. -/
theorem drawSprite : Obligations.DrawSprite := by
  intro s x y n
  have hn := n.isLt
  obtain ⟨hfit, hexec⟩ | ⟨hbeyond, hexec⟩ := execDrwVxVyNibble_cases x y n s
  · refine ⟨fun _ => ⟨_, hexec, ⟨(s.drawing x y n).2, ?sprite, ?flag⟩, otherRegs_setFlag _ _, rfl, ?frame⟩,
      fun h => by omega⟩
    case sprite =>
      have h := draw_xorsExactly s.fb .clip (s.getV x) (s.getV y) (rows := s.mem.readBytes s.i.toNat n.toNat)
        (by rw [Memory.readBytes_length]; omega)
      rw [covers_clip, clipCovers_readBytes] at h
      exact h
    case flag => rw [State.getV_advance, State.getV_setFlag, if_pos rfl, flag_toNat]
    case frame =>
      exact ((sameBut_withFb s _).trans (sameBut_setV _ flagReg _)).trans (sameBut_advance _ 2)
  · exact ⟨fun h => by omega, fun _ => hexec⟩

end Sys2Proof.Machine

/-! What an instruction does not read does not matter to it (10_state.md section 9, 44_display.md R242). -/

namespace Sys2Proof.Machine

/-- The three parts that nearly no instruction reads, each with a value to replace it by. -/
inductive Unread where
  | rng (r : RngState)
  | st (b : Byte)
  | fb (f : FrameBuffer)

/-- The state with that part replaced. -/
def Unread.replace : Unread → State → State
  | .rng r, s => { s with rng := r }
  | .st b, s => { s with st := b }
  | .fb f, s => { s with fb := f }

/-- The instruction does not look at the part, and does not write it either. -/
def Unread.IgnoredBy : Unread → Instr → Prop
  | .rng _, i => ∀ x nn, i ≠ .rndVxByte x nn
  | .st _, i => ∀ x, i ≠ .ldSTVx x
  | .fb _, i => i ≠ .cls ∧ ∀ x y n, i ≠ .drwVxVyNibble x y n

/-- An outcome with its next state changed. -/
def mapNext (f : State → State) : Result → Result
  | .next t => .next (f t)
  | .fault r => .fault r
  | .refused r => .refused r

/-- The outcome does not depend on the part, which it leaves to be what it was. -/
def Unread.Irrelevant (u : Unread) (op : State → Result) : Prop := ∀ s, op (u.replace s) = mapNext u.replace (op s)

theorem Unread.getV_replace (u : Unread) (s : State) (r : Reg) : (u.replace s).getV r = s.getV r := by
  cases u <;> rfl

theorem Unread.pop_replace (u : Unread) (s : State) :
    (u.replace s).pop = s.pop.map fun p => (p.1, u.replace p.2) := by
  unfold State.pop
  rw [apply_dite (Option.map _)]
  cases u <;> rfl

theorem Unread.push_replace (u : Unread) (s : State) (a : Word) : (u.replace s).push a = (s.push a).map u.replace := by
  unfold State.push
  rw [apply_dite (Option.map _)]
  cases u <;> rfl

/-! ## The operations with a check -/

theorem irrelevant_execRet (u : Unread) : u.Irrelevant execRet := by
  intro s
  simp only [execRet, u.pop_replace]
  cases s.pop <;> cases u <;> rfl

theorem irrelevant_execCallAddr (u : Unread) (nnn : Addr) : u.Irrelevant (execCallAddr nnn) := by
  intro s
  have hpc : (u.replace s).pc = s.pc := by cases u <;> rfl
  simp only [execCallAddr, hpc, u.push_replace]
  cases s.push s.pc <;> cases u <;> rfl

theorem irrelevant_keySkip (u : Unread) (x : Reg) (held : Bool) : u.Irrelevant (keySkip x held) := by
  intro s
  simp only [keySkip, u.getV_replace]
  cases keyOperand Config.keyIndexPolicy (s.getV x) <;> cases u <;> rfl

theorem irrelevant_storeAtI (u : Unread) (bytes : List Byte) : u.Irrelevant (storeAtI bytes) := by
  intro s
  unfold storeAtI
  rw [apply_ite (mapNext _)]
  cases u <;> rfl

theorem irrelevant_execLdVxMem (u : Unread) (x : Reg) : u.Irrelevant (execLdVxMem x) := by
  intro s
  unfold execLdVxMem
  rw [apply_ite (mapNext _)]
  cases u <;> rfl

/-- The draw reads neither the generator nor ST (R241). -/
theorem irrelevant_execDrwVxVyNibble {u : Unread} {x y : Reg} {n : Nibble} (hu : u.IgnoredBy (.drwVxVyNibble x y n)) :
    u.Irrelevant (execDrwVxVyNibble x y n) := by
  intro s
  unfold execDrwVxVyNibble
  rw [apply_ite (mapNext _)]
  cases u with
  | rng | st => rfl
  | fb => exact absurd rfl (hu.2 x y n)

/-! ## Every instruction -/

/-- An instruction that does not look at a part answers the same next state with the part replaced alike. -/
theorem irrelevant_exec {u : Unread} {i : Instr} (hu : u.IgnoredBy i) : u.Irrelevant (exec i) := by
  intro s
  cases i with
  | ret => exact irrelevant_execRet u s
  | callAddr nnn => exact irrelevant_execCallAddr u nnn s
  | skpVx | sknpVx => exact irrelevant_keySkip u _ _ s
  | ldBVx x =>
    have h := irrelevant_storeAtI u (bcdDigits (s.getV x)) s
    cases u <;> exact h
  | ldMemVx x =>
    have h := irrelevant_storeAtI u (s.regBytes x) s
    cases u <;> exact h
  | ldVxMem => exact irrelevant_execLdVxMem u _ s
  | drwVxVyNibble => exact irrelevant_execDrwVxVyNibble hu s
  | rndVxByte x nn =>
    cases u with
    | rng => exact absurd rfl (hu x nn)
    | st | fb => rfl
  | ldSTVx x =>
    cases u with
    | st => exact absurd rfl (hu x)
    | rng | fb => rfl
  | cls =>
    cases u with
    | fb => exact absurd rfl hu.1
    | rng | st => rfl
  | _ => cases u <;> rfl

theorem exec_replace {u : Unread} {i : Instr} (hu : u.IgnoredBy i) {s t : State} (h : exec i s = .next t) :
    exec i (u.replace s) = .next (u.replace t) :=
  (irrelevant_exec hu s).trans (congrArg (mapNext u.replace) h)

/-- Under another frame buffer DXYN makes the same check, and draws the same sprite elsewhere. -/
theorem completes_drw_withFb (x y : Reg) (n : Nibble) {s t : State} (h : exec (.drwVxVyNibble x y n) s = .next t)
    (fb : FrameBuffer) :
    Completes (.drwVxVyNibble x y n) { s with fb } fun u => SameBut [.fb, .v] t u ∧ OtherRegs [0xF] t u := by
  obtain ⟨hfit, hexec⟩ | ⟨hbeyond, hexec⟩ := execDrwVxVyNibble_cases x y n s <;> cases hexec.symm.trans h
  · obtain ⟨_, hexec'⟩ | ⟨hbeyond', _⟩ := execDrwVxVyNibble_cases x y n { s with fb }
    · refine ⟨_, hexec', fun p hp => ?frame, fun r hr => ?regs⟩
      case frame => cases p <;> simp [Part.same] at *
      case regs => exact (otherRegs_setFlag _ _ r hr).trans (otherRegs_setFlag _ _ r hr).symm
    · exact absurd hfit hbeyond'.not_ge
  · obtain ⟨hfit', _⟩ | ⟨_, hexec'⟩ := execDrwVxVyNibble_cases x y n { s with fb }
    · exact absurd hfit' hbeyond.not_ge
    · exact ⟨_, hexec', (sameBut_withFb (s.halt _) fb).mono (by decide), .of_v_eq rfl⟩

/-- Settles O41: replacing the part before or after makes no difference; FX18 and 00E0 overwrite it, and DXYN has its own
lemma. -/
theorem unreadStateDoesNotMatter : Obligations.UnreadStateDoesNotMatter := by
  refine fun i s t h => ⟨fun r hi => exec_replace (u := .rng r) hi h, fun b hi => exec_replace (u := .st b) hi h, ?_,
    fun f hcls hdrw => exec_replace (u := .fb f) ⟨hcls, hdrw⟩ h, ?_, ?_⟩
  · rintro b x rfl
    exact h
  · rintro f rfl
    exact h
  · rintro f x y n rfl
    exact completes_drw_withFb x y n h f

end Sys2Proof.Machine
